-- ==== Sys2Proof/Word.lean ====
section
/-! DEFINITION. Word.lean: the one data width of the machine.
Rules: spec/00_scope.md R6 (XLEN = 8, ALEN = 8), R8 (bytes are unsigned). -/

namespace Sys2Proof

/-- An 8-bit value: the contents of A, B, OUT or of one memory cell (R6 XLEN, R8). -/
abbrev Byte := BitVec 8

/-- An 8-bit address of a memory cell; also what the program counter holds (R6 ALEN, R25). -/
abbrev Addr := BitVec 8

end Sys2Proof
end

