-- ==== Sys2Proof/Config.lean ====
section
/-! DEFINITION. Config.lean: the sizes the spec fixes (spec/00_scope.md R6), and the two named parameters it leaves
open, OPC and ORA_DEST, as fields of `Config` (R7; spec/92_eei_decisions.md D1, D2). The default values of the two
stand in Decode.lean (`defaultConfig`). Nothing else of this machine is open, so there is no free value. -/

namespace Sys2Proof

/-- The two general registers (spec/10_state.md R21); they have names and no numbers. -/
inductive Gpr where
  | A
  | B
deriving DecidableEq, Repr

/-- The 19 operation names of the closed instruction set (spec/30_encoding.md R66), the domain of OPC. -/
inductive Mnemonic where
  | hlt
  | outl
  | outr
  | outa
  | outb
  | movla
  | movlb
  | movra
  | movrb
  | movar
  | movbr
  | adda
  | addb
  | subba
  | subab
  | anda
  | andb
  | ora
  | orb
deriving DecidableEq, Repr

/-- The 19 names in the order in which R66 lists them. -/
def Mnemonic.all : List Mnemonic :=
  [.hlt, .outl, .outr, .outa, .outb,
   .movla, .movlb, .movra, .movrb, .movar, .movbr,
   .adda, .addb, .subba, .subab,
   .anda, .andb, .ora, .orb]

/-- The parameters of spec/00_scope.md R7. They are fixed for one machine and are no part of its state (R20).
The 14 bytes of OPC that the source never shows and the register ORA writes are UNVERIFIED (logs 1 and 2), so the
machine is written over an arbitrary `Config`. -/
structure Config where
  /-- OPC: the opcode byte of each instruction (R7, R66, D1). -/
  opc : Mnemonic → Byte
  /-- ORA_DEST: the register ORA writes (R7, R133, D2). -/
  oraDest : Gpr

namespace Config

/-! The sizes of R6. UNVERIFIED literals of the source (spec/93_implementation_defined.md U17; log 21). -/

/-- XLEN: width in bits of A, B, OUT and of a memory cell. -/
abbrev xlen : Nat := 8

/-- ALEN: width in bits of an address and of the program counter. -/
abbrev alen : Nat := 8

/-- MEMSIZE: number of addressable cells, addresses 0 to 255. -/
abbrev memSize : Nat := 256

/-- NGPR: number of general registers. -/
abbrev ngpr : Nat := 2

/-- FLAGW: width in bits of the legacy register. -/
abbrev flagWidth : Nat := 2

/-- NOPS: number of instructions. -/
abbrev nops : Nat := 19

/-- MAXLEN: length in bytes of the longest instruction. -/
abbrev maxLen : Nat := 2

/-- The largest value a register or cell of XLEN bits holds: 2^XLEN - 1 (R22). -/
abbrev maxByte : Int := 255

end Config

end Sys2Proof
end

