-- ==== Sys2Proof/Syntax.lean ====
section
/-! DEFINITION. Syntax.lean: the 19 instructions with their operands (spec/30_encoding.md R60 to R66).
Eleven have no operand (format N), three a literal byte (format L), five an absolute address (format M). -/

namespace Sys2Proof

/-- One constructor per row of spec/opcode_table.json. `lit` is the literal operand of format L (R62), `addr` the
absolute address operand of format M (R63); both are the second byte, whole and unchanged (R64). -/
inductive Instr where
  | hlt
  | outl (lit : Byte)
  | outr (addr : Addr)
  | outa
  | outb
  | movla (lit : Byte)
  | movlb (lit : Byte)
  | movra (addr : Addr)
  | movrb (addr : Addr)
  | movar (addr : Addr)
  | movbr (addr : Addr)
  | adda
  | addb
  | subba
  | subab
  | anda
  | andb
  | ora
  | orb
deriving DecidableEq, Repr

/-- The operation name of an instruction. -/
def Instr.mnemonic : Instr → Mnemonic
  | .hlt => .hlt
  | .outl _ => .outl
  | .outr _ => .outr
  | .outa => .outa
  | .outb => .outb
  | .movla _ => .movla
  | .movlb _ => .movlb
  | .movra _ => .movra
  | .movrb _ => .movrb
  | .movar _ => .movar
  | .movbr _ => .movbr
  | .adda => .adda
  | .addb => .addb
  | .subba => .subba
  | .subab => .subab
  | .anda => .anda
  | .andb => .andb
  | .ora => .ora
  | .orb => .orb

end Sys2Proof
end

