-- ==== Sys2Proof/Machine/State.lean ====
section
/-! DEFINITION. Machine/State.lean: the whole architectural state (spec/10_state.md R20), the reasons a step can
stop, and the state after reset (R34). -/

namespace Sys2Proof.Machine

/-- The reasons inside Faulted(reason) (R29; spec/60_exceptions.md R140). They have a tag and a payload and no number
(R140, D15); nothing in the machine reads the payload (R142; D4, log 4). -/
inductive FaultReason where
  /-- The opcode byte `b` is undecodable (R141). -/
  | illegalInstruction (b : Byte)
  /-- The integer `v`, outside 0 to 255, was presented to a register write (R142). -/
  | outOfRange (v : Int)
deriving DecidableEq, Repr

/-- The three-valued run state (R29; spec/90_conflicts.md C4). -/
inductive Status where
  | running
  | halted
  | faulted (reason : FaultReason)
deriving DecidableEq, Repr

/-- The 256 byte cells, as the list of the cells that do not hold `Memory.unlisted` (= 0), addresses strictly rising
(`Memory.wf` in Machine/Ops.lean). R30: a cell that was never written reads 0. DESIGN CHOICE of form, safe: log 23. -/
abbrev Memory := List Host.Cell

/-- The architectural state of R20, and nothing else: no mode bit (R150; DEDUCED, log 25), no control register (R31). -/
structure State where
  /-- general register `x[A]` (R21) -/
  A : Byte
  /-- general register `x[B]` (R21) -/
  B : Byte
  /-- output register (R23), 8 bits (DEDUCED, log 19) and without a history (DEDUCED, unsafe, log 16) -/
  OUT : Byte
  /-- inert legacy register (R24; DESIGN CHOICE to keep it, log 13) -/
  FLAGS : BitVec 2
  /-- program counter (R25 to R28) -/
  pc : Addr
  /-- run state (R29) -/
  status : Status
  /-- memory (R30) -/
  mem : Memory
deriving DecidableEq, Repr

/-- Why a step does not exist. Both constructors are raised only by the cycle (Machine/Cycle.lean) and both are safe:
they are the stuck terminal states of spec/40_cycle_and_hlt.md R90, in which the CPU has no step until a load (log 6).
The CPU's own faults are no value of this type: R146 describes their entry, so they are next states (log 7). -/
inductive Fault where
  /-- A step was asked for in Halted. Safe. -/
  | halted
  /-- A step was asked for in Faulted(reason). Safe. -/
  | faulted (reason : FaultReason)
deriving DecidableEq, Repr

/-- What the model refuses. No instruction of the opcode table is refused: the last three are refusals of host commands. -/
inductive Refusal where
  /-- Raised by a refused arm of exec for an instruction without a meaning yet (there is none left). Safe. -/
  | notModelled (mnemonic : String)
  /-- Raised by load for an image of more than 256 elements (R172, D8; log 10). Safe. -/
  | imageTooLong (length : Nat)
  /-- Raised by load for an image element outside 0 to 255 (R172, D8; log 10). Safe. -/
  | imageElementOutOfRange (v : Int)
  /-- Raised by the host command step or run before the first load (R173, D7; log 12). Safe. -/
  | notLoaded
deriving DecidableEq, Repr

/-- What a step, a meaning or a host command answers. -/
abbrev Result := Host.Outcome State Fault Refusal

/-- The state after the hardware's reset, which is load, here of the empty image (R34, R170; log 9): every register 0,
status Running, no listed cell. -/
def State.reset : State :=
  { A := 0#8, B := 0#8, OUT := 0#8, FLAGS := 0#2, pc := 0#8, status := .running, mem := [] }

end Sys2Proof.Machine
end

