-- ==== Sys2Proof/Machine/Flags.lean ====
section
/-! DEFINITION. Machine/Flags.lean: conditions on results. The hardware has no condition codes: no instruction
computes, reads or writes a flag (spec/10_state.md R24; spec/43_arithmetic.md R120 point 4), so no flag computation
stands here. Its one condition on a result is the range check of the checked register write (R22). -/

namespace Sys2Proof.Machine

/-- The range `[0, 2^width - 1]` of an 8-bit register (R22). -/
def inByteRange (v : Int) : Bool := decide (0 ≤ v ∧ v ≤ Config.maxByte)

/-- What `set(value)` stores: the value itself where it is in range, nothing where it is not. No wrap, no saturation,
no truncation (R22). -/
def narrow (v : Int) : Option Byte := if inByteRange v then some (BitVec.ofInt 8 v) else none

end Sys2Proof.Machine
end

