-- ==== Sys2Proof/Machine/Ops.lean ====
section
/-! DEFINITION. Machine/Ops.lean: the named operations over memory, registers, program counter and run state. They are
the only ways an instruction touches the state (spec/00_scope.md R11). -/

namespace Sys2Proof.Machine

/-! ## Memory (spec/20_memory.md) -/

/-- What an address that the list does not hold reads as (R30, R42: "unset addresses read as 0"). -/
def Memory.unlisted : Byte := 0#8

/-- `read(address)` of R42. -/
def Memory.read : Memory → Nat → Byte
  | [], _ => Memory.unlisted
  | (k, w) :: m, a => if k = a then w else Memory.read m a

/-- The memory without any entry for `a`. -/
def Memory.remove : Memory → Nat → Memory
  | [], _ => []
  | (k, w) :: m, a => if k = a then Memory.remove m a else (k, w) :: Memory.remove m a

/-- An entry put before the first entry of a greater address. -/
def Memory.place : Memory → Nat → Byte → Memory
  | [], a, v => [(a, v)]
  | (k, w) :: m, a, v => if a < k then (a, v) :: (k, w) :: m else (k, w) :: Memory.place m a v

/-- `write(address, value)` of R43, keeping the canonical form: writing `unlisted` only takes the entry out. -/
def Memory.write (m : Memory) (a : Nat) (v : Byte) : Memory :=
  if v = Memory.unlisted then m.remove a else (m.remove a).place a v

/-- Every listed address is at least `lo` and one of the 256 cells (R40), the addresses rise strictly, and no entry
equals what an unlisted address reads as. -/
def Memory.wfFrom (lo : Nat) : Memory → Bool
  | [] => true
  | (k, v) :: m =>
    decide (lo ≤ k) && decide (k < Config.memSize) && decide (v ≠ Memory.unlisted) && Memory.wfFrom (k + 1) m

/-- The canonical form of a memory, in which equal memories are equal data. -/
def Memory.wf (m : Memory) : Bool := Memory.wfFrom 0 m

/-- The errors of the Memory component's own argument checks (R44; spec/60_exceptions.md R143, R156). No step can
raise one: a step's addresses and values are bytes. DESIGN CHOICE to model them beside the step, safe: log 26. R44 and
R143 give the two names and no payload (D4 settles the CPU's fault reasons alone): that each carries the offending
integer is the model's own DESIGN CHOICE, unsafe for a claim about the payload: log 27. -/
inductive MemoryError where
  /-- A read whose address `a` is outside 0 to 255. -/
  | invalidAddress (a : Int)
  /-- A write whose address or value `v` is outside 0 to 255. -/
  | outOfRange (v : Int)
deriving DecidableEq, Repr

/-- The Memory component's read with its argument check (R44). -/
def Memory.checkedRead (m : Memory) (a : Int) : Except MemoryError Byte :=
  if 0 ≤ a ∧ a < Config.memSize then .ok (m.read a.toNat) else .error (.invalidAddress a)

/-- The Memory component's write with its argument checks, on the address and on the value (R44). Where both are bad it
reports the address: DESIGN CHOICE, log 27. -/
def Memory.checkedWrite (m : Memory) (a v : Int) : Except MemoryError Memory :=
  if 0 ≤ a ∧ a < Config.memSize then
    match narrow v with
    | some b => .ok (m.write a.toNat b)
    | none => .error (.outOfRange v)
  else .error (.outOfRange a)

/-- `MemRead(a, 1)` (R11, R42): used by the opcode fetch, the operand fetch and the data read alike (R45, R53), so a
store is seen by every later fetch (DEDUCED, unsafe, log 20). -/
def memRead (a : Addr) (s : State) : Byte := s.mem.read a.toNat

/-- `MemWrite(a, 1, v)` (R11, R43). -/
def memWrite (a : Addr) (v : Byte) (s : State) : State := { s with mem := s.mem.write a.toNat v }

/-- Bytes stored one after another from address `a` upwards, wrapping past 255 as the program counter does. -/
def storeBytes (a : Addr) : List Byte → State → State
  | [], s => s
  | v :: vs, s => storeBytes (a + 1#8) vs (memWrite a v s)

/-! ## Program counter (spec/10_state.md R27) -/

/-- `IncPc()`: pc becomes (pc + 1) mod 256; never rejected. -/
def incPc (s : State) : State := { s with pc := s.pc + 1#8 }

/-- A one-byte instruction leaves pc where the decode stage put it (R26). -/
def keepPc (s : State) : State := s

/-! ## Run state and taking a fault (spec/60_exceptions.md) -/

/-- Taking a fault, the one shared operation of R146: status becomes Faulted(reason) and nothing else changes. Nothing
is saved, there is no handler, and no return from a fault exists (R148); only load leaves the state it makes. -/
def raise (reason : FaultReason) (s : State) : State := { s with status := .faulted reason }

/-- `halt` of R11 (R97). -/
def halt (s : State) : State := { s with status := .halted }

/-! ## Registers (spec/10_state.md R21 to R23) -/

/-- The cells of checked writes: the general registers and the output register (R10, R22). -/
inductive Dest where
  | gpr (r : Gpr)
  | out
deriving DecidableEq, Repr

/-- Reading a general register; neither is hard-wired (R21). -/
def readGpr : Gpr → State → Byte
  | .A, s => s.A
  | .B, s => s.B

/-- A register takes a value. -/
def setReg : Dest → Byte → State → State
  | .gpr .A, v, s => { s with A := v }
  | .gpr .B, v, s => { s with B := v }
  | .out, v, s => { s with OUT := v }

/-- The checked write of R22 as the effect of an instruction: where `v` is in 0 to 255 the register takes it and the
step goes on with `after`; where it is not, the register keeps its old value (DEDUCED, D16, log 5), OutOfRange(v) is
raised (R142) and no later stage of the step runs (R146). -/
def checkedWrite (r : Dest) (v : Int) (after : State → State) (s : State) : Result :=
  match narrow v with
  | some b => .next (after (setReg r b s))
  | none => .next (raise (.outOfRange v) s)

end Sys2Proof.Machine
end

