-- ==== Sys2Proof/Machine/Operands.lean ====
section
/-! DEFINITION. Machine/Operands.lean: the operand forms, each giving the integer an instruction writes. They are a
literal, a memory cell named by an absolute address, and the implicit registers A and B (spec/30_encoding.md R61 to
R64); there is no other addressing mode. Values are unsigned (spec/00_scope.md R8). -/

namespace Sys2Proof.Machine

/-- The unsigned value of a byte, as the unbounded integer pseudocode computes with (R9). -/
def unsigned (b : Byte) : Int := (b.toNat : Int)

/-- A literal operand: the byte itself, not extended, scaled or combined (R64). -/
def literalValue (lit : Byte) : Int := unsigned lit

/-- The cell that an address operand names; the effective address is the operand itself (R64). -/
def cellValue (addr : Addr) (s : State) : Int := unsigned (memRead addr s)

/-- An implicit register operand (R61). -/
def gprValue (r : Gpr) (s : State) : Int := unsigned (readGpr r s)

end Sys2Proof.Machine
end

