-- ==== Sys2Proof/Machine/Arithmetic.lean ====
section
/-! DEFINITION. Machine/Arithmetic.lean: ADDA, ADDB, SUBBA, SUBAB (spec/43_arithmetic.md R120 to R124). The result is
the true integer, -255 to 510, presented to the checked write: out of range it is never wrapped or clamped but raises
OutOfRange with that integer (R120; the payload is D4, log 4). -/

namespace Sys2Proof.Machine

/-- ADDA (R121): A becomes A + B. -/
def execAdda (s : State) : Result := checkedWrite (.gpr .A) (gprValue .A s + gprValue .B s) keepPc s

/-- ADDB (R122): B becomes A + B. -/
def execAddb (s : State) : Result := checkedWrite (.gpr .B) (gprValue .A s + gprValue .B s) keepPc s

/-- SUBBA (R123): A becomes A - B. -/
def execSubba (s : State) : Result := checkedWrite (.gpr .A) (gprValue .A s - gprValue .B s) keepPc s

/-- SUBAB (R124): B becomes B - A. -/
def execSubab (s : State) : Result := checkedWrite (.gpr .B) (gprValue .B s - gprValue .A s) keepPc s

end Sys2Proof.Machine
end

