-- ==== Sys2Proof/WellFormed.lean ====
section
/-! DEFINITION. WellFormed.lean: what makes an instruction, a configuration and a load image well formed.
An instruction's operand is a byte by its type, and all 256 values are legal (spec/30_encoding.md R71), so no term of
`Instr` is ill formed; the checks that can refuse are those of OPC (R7, R67) and of the image (R172). -/

namespace Sys2Proof

/-- A literal is in 0 to 255 and an address names one of the 256 cells (R64, R71; spec/20_memory.md R40, R44). -/
def Instr.wellFormed : Instr → Bool
  | .outl lit | .movla lit | .movlb lit => decide ((lit.toNat : Int) ≤ Config.maxByte)
  | .outr addr | .movra addr | .movrb addr | .movar addr | .movbr addr => decide (addr.toNat < Config.memSize)
  | .hlt | .outa | .outb | .adda | .addb | .subba | .subab | .anda | .andb | .ora | .orb => true

namespace Config

/-- OPC is injective: 19 distinct opcode bytes (R7, R68; spec/90_conflicts.md C2). DEDUCED, log 24. -/
def opcInjective (c : Config) : Bool := decide (Mnemonic.all.map c.opc).Nodup

/-- Every opcode byte lies in 0x00 to 0x34 (R7; R67 point 1). -/
def opcInRange (c : Config) : Bool := Mnemonic.all.all fun m => decide (c.opc m ≤ 0x34#8)

/-- The five opcode bytes that the source's worked program fixes (R7; R67 point 2). -/
def opcAnchored (c : Config) : Bool :=
  c.opc .hlt == 0x00#8 && c.opc .outa == 0x03#8 && c.opc .movla == 0x11#8 &&
  c.opc .movlb == 0x12#8 && c.opc .adda == 0x21#8

/-- What the source fixes of OPC. Both values of ORA_DEST are admissible (R7, R133). -/
def admissible (c : Config) : Bool := c.opcInjective && c.opcInRange && c.opcAnchored

end Config

/-- The constraints R172 puts on the image handed to load: at most 256 elements, each an integer in 0 to 255. -/
def imageWellFormed (img : List Int) : Bool :=
  decide (img.length ≤ Config.memSize) && img.all fun v => decide (0 ≤ v ∧ v ≤ Config.maxByte)

end Sys2Proof
end

