-- ==== Sys2Proof/Decode.lean ====
section
/-! DEFINITION. Decode.lean: the opcode map, the decoder and, after it, the encoder.
Rules: spec/30_encoding.md R60 to R71. The decoder is total on bytes and on byte lists and rejects by name. -/

namespace Sys2Proof

/-- OPC at its default (R66). HLT, OUTA, MOVLA, MOVLB and ADDA are the source's own bytes; the other 14 are the
spec's reconstruction (D1). UNVERIFIED, unsafe: log 1. -/
def defaultOpc : Mnemonic → Byte
  | .hlt => 0x00#8
  | .outl => 0x01#8
  | .outr => 0x02#8
  | .outa => 0x03#8
  | .outb => 0x04#8
  | .movla => 0x11#8
  | .movlb => 0x12#8
  | .movra => 0x13#8
  | .movrb => 0x14#8
  | .movar => 0x15#8
  | .movbr => 0x16#8
  | .adda => 0x21#8
  | .addb => 0x22#8
  | .subba => 0x23#8
  | .subab => 0x24#8
  | .anda => 0x31#8
  | .andb => 0x32#8
  | .ora => 0x33#8
  | .orb => 0x34#8

/-- The parameters at the defaults of R7: OPC as in R66, ORA_DEST = B (R133, D2). UNVERIFIED, unsafe: logs 1 and 2. -/
def defaultConfig : Config := { opc := defaultOpc, oraDest := .B }

/-- `decode(b)` of R68: the mnemonic whose opcode byte is `b`, `none` for an undecodable byte (R69). -/
def decodeOpcode (c : Config) (b : Byte) : Option Mnemonic :=
  Mnemonic.all.find? fun m => c.opc m == b

/-- What is left to do once the opcode byte is known: nothing (format N), or to take one operand byte (formats L
and M); R61 to R63, R65. -/
inductive Shape where
  | noOperand (i : Instr)
  | operand (build : Byte → Instr)

/-- The length and operand form of each instruction, known from the opcode alone (R65). -/
def Mnemonic.shape : Mnemonic → Shape
  | .hlt => .noOperand .hlt
  | .outl => .operand .outl
  | .outr => .operand .outr
  | .outa => .noOperand .outa
  | .outb => .noOperand .outb
  | .movla => .operand .movla
  | .movlb => .operand .movlb
  | .movra => .operand .movra
  | .movrb => .operand .movrb
  | .movar => .operand .movar
  | .movbr => .operand .movbr
  | .adda => .noOperand .adda
  | .addb => .noOperand .addb
  | .subba => .noOperand .subba
  | .subab => .noOperand .subab
  | .anda => .noOperand .anda
  | .andb => .noOperand .andb
  | .ora => .noOperand .ora
  | .orb => .noOperand .orb

/-- Why a byte list is no instruction: `illegal` is R69's undecodable byte; the other two say that the list ended
before the instruction did, which cannot happen in the machine's memory (it wraps, R27): DESIGN CHOICE, safe, log 28. -/
inductive DecodeError where
  | noBytes
  | illegal (b : Byte)
  | missingOperand (m : Mnemonic)
deriving DecidableEq, Repr

/-- The instruction at the head of a byte list and the bytes after it: opcode byte first, operand byte second
(R60 to R65; spec/20_memory.md R46). -/
def decode (c : Config) : List Byte → Except DecodeError (Instr × List Byte)
  | [] => .error .noBytes
  | b :: rest =>
    match decodeOpcode c b with
    | none => .error (.illegal b)
    | some m =>
      match m.shape, rest with
      | .noOperand i, _ => .ok (i, rest)
      | .operand _, [] => .error (.missingOperand m)
      | .operand build, opnd :: rest' => .ok (build opnd, rest')

/-- The bytes of an instruction, lowest address first (R61 to R63). -/
def encode (c : Config) : Instr → List Byte
  | .hlt => [c.opc .hlt]
  | .outl lit => [c.opc .outl, lit]
  | .outr addr => [c.opc .outr, addr]
  | .outa => [c.opc .outa]
  | .outb => [c.opc .outb]
  | .movla lit => [c.opc .movla, lit]
  | .movlb lit => [c.opc .movlb, lit]
  | .movra addr => [c.opc .movra, addr]
  | .movrb addr => [c.opc .movrb, addr]
  | .movar addr => [c.opc .movar, addr]
  | .movbr addr => [c.opc .movbr, addr]
  | .adda => [c.opc .adda]
  | .addb => [c.opc .addb]
  | .subba => [c.opc .subba]
  | .subab => [c.opc .subab]
  | .anda => [c.opc .anda]
  | .andb => [c.opc .andb]
  | .ora => [c.opc .ora]
  | .orb => [c.opc .orb]

/-- The longest instruction's two bytes (R6 MAXLEN) from a word numbered as spec/opcode_table.json numbers it: the
first byte is bits 7 to 0, the second bits 15 to 8; the bits above `nbits` are 0. -/
def tableBytes (nbits w : Nat) : List Byte :=
  [BitVec.ofNat 8 (w % 2 ^ nbits), BitVec.ofNat 8 (w % 2 ^ nbits / 256)]

/-- The instruction the decoder reads, at the default parameters, from a word of the opcode table. -/
def decodeTableWord (nbits w : Nat) : Option Instr :=
  match decode defaultConfig (tableBytes nbits w) with
  | .ok (i, _) => some i
  | .error _ => none

end Sys2Proof
end

