-- ==== Sys2Proof/Machine/Logic.lean ====
section
/-! DEFINITION. Machine/Logic.lean: ANDA, ANDB, ORA, ORB (spec/44_logic.md R130 to R134). `&` and `|` are bitwise on
the two bytes (R130; DEDUCED, unsafe, log 22), so the checked write never fails. -/

namespace Sys2Proof.Machine

/-- The byte A & B (R130). -/
def andAB (s : State) : Byte := readGpr .A s &&& readGpr .B s

/-- The byte A | B (R130). -/
def orAB (s : State) : Byte := readGpr .A s ||| readGpr .B s

/-- ANDA (R131): A becomes A & B. -/
def execAnda (s : State) : Result := checkedWrite (.gpr .A) (unsigned (andAB s)) keepPc s

/-- ANDB (R132): B becomes A & B. -/
def execAndb (s : State) : Result := checkedWrite (.gpr .B) (unsigned (andAB s)) keepPc s

/-- ORA for a given value of the parameter ORA_DEST (R133): that register becomes A | B. -/
def execOraInto (dest : Gpr) (s : State) : Result := checkedWrite (.gpr dest) (unsigned (orAB s)) keepPc s

/-- ORA (R133) at the default ORA_DEST, which is B: the source's table literally. UNVERIFIED, unsafe: log 2. -/
def execOra (s : State) : Result := execOraInto defaultConfig.oraDest s

/-- ORB (R134): B becomes A | B. -/
def execOrb (s : State) : Result := checkedWrite (.gpr .B) (unsigned (orAB s)) keepPc s

end Sys2Proof.Machine
end

