-- ==== Sys2Proof/Machine/Move.lean ====
section
/-! DEFINITION. Machine/Move.lean: MOVLA, MOVLB, MOVRA, MOVRB, MOVAR, MOVBR, all the loads and stores of the machine
(spec/42_move.md R110 to R115). All are two bytes long, so the second increment of pc follows the effect (R94). -/

namespace Sys2Proof.Machine

/-- MOVLA (R110): A becomes the literal. -/
def execMovla (lit : Byte) (s : State) : Result := checkedWrite (.gpr .A) (literalValue lit) incPc s

/-- MOVLB (R111): B becomes the literal. -/
def execMovlb (lit : Byte) (s : State) : Result := checkedWrite (.gpr .B) (literalValue lit) incPc s

/-- MOVRA (R112): A becomes the cell at `addr`. -/
def execMovra (addr : Addr) (s : State) : Result := checkedWrite (.gpr .A) (cellValue addr s) incPc s

/-- MOVRB (R113): B becomes the cell at `addr`. -/
def execMovrb (addr : Addr) (s : State) : Result := checkedWrite (.gpr .B) (cellValue addr s) incPc s

/-- MOVAR (R114): the cell at `addr` becomes A. -/
def execMovar (addr : Addr) (s : State) : Result := .next (incPc (memWrite addr (readGpr .A s) s))

/-- MOVBR (R115): the cell at `addr` becomes B. -/
def execMovbr (addr : Addr) (s : State) : Result := .next (incPc (memWrite addr (readGpr .B s) s))

end Sys2Proof.Machine
end

