-- ==== Sys2Proof/Machine/Output.lean ====
section
/-! DEFINITION. Machine/Output.lean: OUTL, OUTR, OUTA, OUTB (spec/41_output.md R100 to R103). They write OUT by the
checked write, always with a byte. -/

namespace Sys2Proof.Machine

/-- OUTL (R100): OUT becomes the literal; the second increment of pc follows (R94). -/
def execOutl (lit : Byte) (s : State) : Result := checkedWrite .out (literalValue lit) incPc s

/-- OUTR (R101): OUT becomes the cell at `addr`. -/
def execOutr (addr : Addr) (s : State) : Result := checkedWrite .out (cellValue addr s) incPc s

/-- OUTA (R102): OUT becomes A. -/
def execOuta (s : State) : Result := checkedWrite .out (gprValue .A s) keepPc s

/-- OUTB (R103): OUT becomes B. -/
def execOutb (s : State) : Result := checkedWrite .out (gprValue .B s) keepPc s

end Sys2Proof.Machine
end

