-- ==== Sys2Proof/Machine/System.lean ====
section
/-! DEFINITION. Machine/System.lean: HLT, the only system instruction (spec/40_cycle_and_hlt.md R97, R99).
Every meaning of this model is the execute stage (R12, R95): it starts after the decode stage has advanced pc past the
opcode byte (R92), and the operand of a two-byte instruction is its argument (log 8). -/

namespace Sys2Proof.Machine

/-- HLT (R97): status becomes Halted; pc stays one past the HLT byte. -/
def execHlt (s : State) : Result := .next (halt s)

end Sys2Proof.Machine
end

