-- ==== Sys2Proof/Machine/Dispatch.lean ====
section
/-! DEFINITION. Machine/Dispatch.lean: the execute stage of spec/40_cycle_and_hlt.md R95, one arm per instruction.
The state it is given is the one the decode stage leaves, with pc past the opcode byte (R92; log 8). -/

namespace Sys2Proof.Machine

def exec (i : Instr) (s : State) : Host.Outcome State Fault Refusal :=
  match i with
  | .hlt => Sys2Proof.Machine.execHlt s
  | .outl lit => Sys2Proof.Machine.execOutl lit s
  | .outr addr => Sys2Proof.Machine.execOutr addr s
  | .outa => Sys2Proof.Machine.execOuta s
  | .outb => Sys2Proof.Machine.execOutb s
  | .movla lit => Sys2Proof.Machine.execMovla lit s
  | .movlb lit => Sys2Proof.Machine.execMovlb lit s
  | .movra addr => Sys2Proof.Machine.execMovra addr s
  | .movrb addr => Sys2Proof.Machine.execMovrb addr s
  | .movar addr => Sys2Proof.Machine.execMovar addr s
  | .movbr addr => Sys2Proof.Machine.execMovbr addr s
  | .adda => Sys2Proof.Machine.execAdda s
  | .addb => Sys2Proof.Machine.execAddb s
  | .subba => Sys2Proof.Machine.execSubba s
  | .subab => Sys2Proof.Machine.execSubab s
  | .anda => Sys2Proof.Machine.execAnda s
  | .andb => Sys2Proof.Machine.execAndb s
  | .ora => Sys2Proof.Machine.execOra s
  | .orb => Sys2Proof.Machine.execOrb s

end Sys2Proof.Machine
end

