-- ==== Sys2Proof/Machine/Cycle.lean ====
section
/-! DEFINITION. Machine/Cycle.lean: one iteration of fetch, decode and execute (spec/40_cycle_and_hlt.md R90 to R95),
for given parameters OPC and ORA_DEST. -/

namespace Sys2Proof.Machine

/-- The execute stage at given parameters: `exec`, but ORA writes the register that ORA_DEST names (R133). -/
def execWith (c : Config) (i : Instr) (s : State) : Result :=
  if i = .ora then execOraInto c.oraDest s else exec i s

/-- Operand fetch and execute stage (R94, R95), in the state the decode stage leaves: a two-byte instruction takes
the byte at the already advanced pc, a one-byte instruction takes none. -/
def operandAndExecute (c : Config) (m : Mnemonic) (s : State) : Result :=
  match m.shape with
  | .noOperand i => execWith c i s
  | .operand build => execWith c (build (memRead s.pc s)) s

/-- Fetch and decode of a Running CPU, then the rest of the step (R91 to R93): pc is advanced once for every fetched
byte, decodable or not (R92; for an undecodable byte that is D3: DEDUCED, unsafe, log 3). -/
def fetchAndExecute (c : Config) (s : State) : Result :=
  match decodeOpcode c (memRead s.pc s) with
  | none => .next (raise (.illegalInstruction (memRead s.pc s)) (incPc s))
  | some m => operandAndExecute c m (incPc s)

/-- One step (R90): enabled only in Running. In Halted and Faulted there is no step, which the model answers with a
fault outcome of its own name (DESIGN CHOICE, safe, log 6). The step is one atomic transition (R95, D5; DEDUCED,
unsafe, log 14). -/
def stepWith (c : Config) (s : State) : Result :=
  match s.status with
  | .running => fetchAndExecute c s
  | .halted => .fault .halted
  | .faulted reason => .fault (.faulted reason)

/-- The two bytes at pc, where step fetches, hold the given word (the longest instruction has two, R6), and the CPU is
Running, which fetching needs (R90; DESIGN CHOICE, safe, log 17). -/
def placeWord (nbits w : Nat) (s : State) : State :=
  { storeBytes s.pc (tableBytes nbits w) s with status := .running }

end Sys2Proof.Machine
end

