-- ==== Sys2Proof/Machine/Step.lean ====
section
/-! DEFINITION. Machine/Step.lean: the step at the default parameters (spec/00_scope.md R7), and where it fetches. -/

namespace Sys2Proof.Machine

/-- One step of the machine at the default OPC and ORA_DEST; Machine/Cycle.lean holds what a step does. -/
def step (s : State) : Host.Outcome State Fault Refusal := stepWith defaultConfig s

/-- `s` with a word of the opcode table stored where `step` fetches its next instruction. Programs come to run by the
host's load (Machine/Commands.lean), for which this stands (logs 9 and 17). -/
def State.withFetchWord (s : State) (nbits w : Nat) : State := placeWord nbits w s

end Sys2Proof.Machine
end

