-- ==== Sys2Proof/Machine/Commands.lean ====
section
/-! DEFINITION. Machine/Commands.lean: what the host can do to the machine (spec/10_state.md R36): load, step, run.
It reads the whole state between commands (R35) and does nothing else to it (DEDUCED, unsafe, log 14). -/

namespace Sys2Proof.Machine

/-- `load(img)` (spec/70_reset_and_hazards.md R170): every register 0, status Running, the image from address 0
upwards (DEDUCED, D10, log 18), every other cell 0. An image of more than 256 elements, or with an element outside 0
to 255, is refused as a whole (R172, D8; log 10). The state before the load has no influence (R171), so it is no
argument. -/
def loadImage (img : List Int) : Result :=
  if Config.memSize < img.length then .refused (.imageTooLong img.length)
  else
    match img.find? fun v => !inByteRange v with
    | some v => .refused (.imageElementOutOfRange v)
    | none => .next (storeBytes 0#8 (img.map (BitVec.ofInt 8)) State.reset)

/-- How a run under fuel ends. -/
inductive RunResult where
  /-- status is no longer Running: the run is over (spec/00_scope.md R14). -/
  | ended (s : State)
  /-- The fuel is used up and status is still Running. -/
  | outOfFuel (s : State)
deriving DecidableEq, Repr

/-- `run` (spec/40_cycle_and_hlt.md R96), `while status = Running do step()`, cut off after `fuel` steps: a run need
not end (spec/70_reset_and_hazards.md R179, D22; DESIGN CHOICE, safe, log 15). A Running state always has a next state, so the two stops
inside the match are never reached from Running. -/
def runFor (c : Config) : Nat → State → RunResult
  | 0, s => if s.status = .running then .outOfFuel s else .ended s
  | fuel + 1, s =>
    match s.status with
    | .halted | .faulted _ => .ended s
    | .running =>
      match stepWith c s with
      | .next t => runFor c fuel t
      | .fault _ | .refused _ => .outOfFuel s

/-- The host's three commands (R36); run carries its fuel. -/
inductive Command where
  | load (img : List Int)
  | step
  | run (fuel : Nat)
deriving DecidableEq, Repr

/-- A command given to the machine: `none` is the constructed CPU before its first load, whose state the spec leaves
unspecified and gives no step (R173, D7; log 12). load is allowed in every state (R171, D9; log 11). -/
def perform (c : Config) : Command → Option State → Result
  | .load img, _ => loadImage img
  | .step, none => .refused .notLoaded
  | .step, some s => stepWith c s
  | .run _, none => .refused .notLoaded
  | .run fuel, some s =>
    match runFor c fuel s with
    | .ended t | .outOfFuel t => .next t

end Sys2Proof.Machine
end

