-- ==== Sys2Proof/Safety.lean ====
section
/-! DEFINITION. Safety.lean: the terms in which claims speak of a run: its end (spec/00_scope.md R14), the reachable
states, and the invariant of the machine. -/

namespace Sys2Proof.Machine

/-- The next state of an answer, if it has one. -/
def nextState? : Result → Option State
  | .next s => some s
  | .fault _ => none
  | .refused _ => none

/-- A run is over when status is not Running (R14). -/
def runOver (s : State) : Bool := decide (s.status ≠ .running)

/-- Only Halted is a successful end (R14). -/
def successfulEnd (s : State) : Bool := decide (s.status = .halted)

/-- The payloads a fault reason can carry: an undecodable byte (spec/60_exceptions.md R141); a sum in 256 to 510 or a
difference in -255 to -1 (R142; the payload is D4, log 4). -/
def FaultReason.legal (c : Config) : FaultReason → Bool
  | .illegalInstruction b => decide (decodeOpcode c b = none)
  | .outOfRange v => decide (256 ≤ v ∧ v ≤ 510) || decide (-255 ≤ v ∧ v ≤ -1)

/-- A status whose reason, if it has one, is legal. -/
def Status.legal (c : Config) : Status → Bool
  | .running => true
  | .halted => true
  | .faulted reason => reason.legal c

/-- The invariant of the machine: memory in its canonical form, the legacy register 0 (spec/10_state.md R24), and a
legal status. -/
structure Inv (c : Config) (s : State) : Prop where
  memCanonical : s.mem.wf = true
  flagsZero : s.FLAGS = 0#2
  statusLegal : s.status.legal c = true

/-- A Running CPU whose next opcode byte is that of `m`. -/
def Fetches (c : Config) (s : State) (m : Mnemonic) : Prop := s.status = .running ∧ memRead s.pc s = c.opc m

/-- The byte that a two-byte instruction at pc takes as its operand (R94). -/
def operandByte (s : State) : Byte := memRead (s.pc + 1#8) s

/-- The two bytes at pc: all that a fetch can need. -/
def fetchWindow (s : State) : List Byte := [memRead s.pc s, operandByte s]

/-- Agreement on all that can influence execution: everything but OUT and FLAGS (R23, R24). -/
structure SameButOutAndFlags (s t : State) : Prop where
  A : s.A = t.A
  B : s.B = t.B
  pc : s.pc = t.pc
  status : s.status = t.status
  mem : s.mem = t.mem

/-- The states that load and any number of steps lead to (spec/70_reset_and_hazards.md R173: every run starts at the
state load produces). -/
inductive Reachable (c : Config) : State → Prop where
  | load {img : List Int} {t : State} (h : loadImage img = .next t) : Reachable c t
  | step {s t : State} (hs : Reachable c s) (h : stepWith c s = .next t) : Reachable c t

end Sys2Proof.Machine
end

