-- ==== Sys2Proof/Certificates/Slice0/Obligations.lean ====
section
/-! DEFINITION. Certificates/Slice0/Obligations.lean: the statements for the provers, from the numbered rules of spec/.
`c` is an arbitrary value of the parameters OPC and ORA_DEST; a statement that says `c.admissible` holds for every OPC
the source allows, so it rests on none of the 14 reconstructed opcode bytes (log 1). Every meaning starts in the state
the decode stage leaves (log 8), so an exec equation shows one increment of pc less than the step equation beside it. -/

open Sys2Proof Sys2Proof.Machine

/-! ## Encoding -/

/-- R60 to R65, R68: decoding an encoded instruction gives it back, with every operand, whatever follows it. -/
def Obligations.EncodeThenDecodeGivesInstruction : Prop :=
  ∀ (c : Config) (i : Instr) (rest : List Byte), c.admissible = true → i.wellFormed = true →
    decode c (encode c i ++ rest) = .ok (i, rest)

/-- R60 to R65: what the decoder reads is the encoding of the instruction it answers, so no second byte string means
that instruction. Holds for every OPC, injective or not. -/
def Obligations.DecodedBytesAreTheEncoding : Prop :=
  ∀ (c : Config) (bytes : List Byte) (i : Instr) (rest : List Byte), decode c bytes = .ok (i, rest) →
    bytes = encode c i ++ rest ∧ i.wellFormed = true

/-- R68: `decode(b)` is Legal(m) where `b = OPC(m)` and Illegal(b) where `b` is no opcode byte; the decoder rejects an
illegal byte by name. -/
def Obligations.OpcodeByteDecodesToItsMnemonicOrIsIllegal : Prop :=
  ∀ (c : Config) (b : Byte), c.opcInjective = true →
    (∀ m, decodeOpcode c b = some m ↔ c.opc m = b) ∧
    (decodeOpcode c b = none ↔ ∀ m, c.opc m ≠ b) ∧
    ((∀ m, c.opc m ≠ b) → ∀ rest, decode c (b :: rest) = .error (.illegal b))

/-- R67 point 2: the source's own program bytes decode to the instructions the source names, under every admissible OPC. -/
def Obligations.SourceProgramBytesDecode : Prop :=
  ∀ c : Config, c.admissible = true →
    decode c [0x11#8, 0x05#8] = .ok (.movla 0x05#8, []) ∧
    decode c [0x12#8, 0x03#8] = .ok (.movlb 0x03#8, []) ∧
    decode c [0x21#8] = .ok (.adda, []) ∧
    decode c [0x03#8] = .ok (.outa, []) ∧
    decode c [0x00#8] = .ok (.hlt, [])

/-- A word of each family at the default OPC (R66). Rests on the reconstructed bytes: the spec's decision D1, log 1. -/
def Obligations.DefaultMapWordsDecode : Prop :=
  decodeTableWord 8 0x00 = some .hlt ∧
  decodeTableWord 16 0x7E01 = some (.outl 0x7E#8) ∧
  decodeTableWord 16 0x8002 = some (.outr 0x80#8) ∧
  decodeTableWord 16 0x8115 = some (.movar 0x81#8) ∧
  decodeTableWord 8 0x24 = some .subab ∧
  decodeTableWord 8 0x33 = some .ora ∧
  decodeTableWord 8 0x35 = none

/-- R69, R93: at the default OPC a step from Running raises IllegalInstruction exactly at the bytes R69 lists. Rests on
the reconstructed bytes: the spec's decision D1, log 1. -/
def Obligations.DefaultMapFaultsExactlyOnTheIllegalBytes : Prop :=
  ∀ s : State, s.status = .running →
    ((∃ t, step s = .next t ∧ t.status = .faulted (.illegalInstruction (memRead s.pc s))) ↔
      (0x05 ≤ (memRead s.pc s).toNat ∧ (memRead s.pc s).toNat ≤ 0x10) ∨
      (0x17 ≤ (memRead s.pc s).toNat ∧ (memRead s.pc s).toNat ≤ 0x20) ∨
      (0x25 ≤ (memRead s.pc s).toNat ∧ (memRead s.pc s).toNat ≤ 0x30) ∨
      0x35 ≤ (memRead s.pc s).toNat)

/-! ## The step -/

/-- R91 to R95: where the bytes at pc decode to an instruction, a step of a Running CPU is that instruction's execute
stage in the state with pc advanced once. -/
def Obligations.StepRunsTheDecodedInstruction : Prop :=
  ∀ (s : State) (i : Instr) (rest : List Byte), s.status = .running →
    decode defaultConfig (fetchWindow s) = .ok (i, rest) →
    step s = exec i { s with pc := s.pc + 1#8 }

/-- R91 to R95 for every admissible OPC and both ORA_DEST: where the bytes at pc are an instruction's encoding, a step
runs it. -/
def Obligations.StepRunsTheEncodedInstruction : Prop :=
  ∀ (c : Config) (s : State) (i : Instr) (rest : List Byte), c.admissible = true → s.status = .running →
    fetchWindow s = encode c i ++ rest →
    stepWith c s = execWith c i { s with pc := s.pc + 1#8 }

/-- The model's own interface (logs 9 and 17): a table word placed in a state is what the next step runs. -/
def Obligations.PlacedTableWordRunsNext : Prop :=
  ∀ (s : State) (nbits w : Nat) (i : Instr), decodeTableWord nbits w = some i →
    step (s.withFetchWord nbits w) =
      exec i { s.withFetchWord nbits w with pc := s.pc + 1#8, status := .running }

/-- R93, R141: an undecodable byte faults with that byte and changes nothing else; that pc is one past the byte is the
spec's decision D3 (log 3), and the payload its decision D4 (log 4). -/
def Obligations.UndecodableByteFaults : Prop :=
  ∀ (c : Config) (s : State), s.status = .running → (∀ m, c.opc m ≠ memRead s.pc s) →
    stepWith c s =
      .next { s with pc := s.pc + 1#8, status := .faulted (.illegalInstruction (memRead s.pc s)) }

/-- R67 point 1, R69: a byte above 0x34 is undecodable under every admissible OPC. The value of pc is D3 (log 3). -/
def Obligations.ByteAboveTheCodeRangeFaults : Prop :=
  ∀ (c : Config) (s : State), c.admissible = true → s.status = .running → 0x34 < (memRead s.pc s).toNat →
    stepWith c s =
      .next { s with pc := s.pc + 1#8, status := .faulted (.illegalInstruction (memRead s.pc s)) }

/-- R90, R181: Halted and Faulted have no step and a run leaves them as they are. That a single step asked for there
does nothing is the spec's decision D6; the name of the model's answer is log 6. -/
def Obligations.TerminalStatesHaveNoStep : Prop :=
  ∀ (c : Config) (s : State),
    (s.status = .halted → stepWith c s = .fault .halted) ∧
    (∀ reason, s.status = .faulted reason → stepWith c s = .fault (.faulted reason)) ∧
    (s.status ≠ .running → ∀ fuel, runFor c fuel s = .ended s)

/-- R95, R145: a Running CPU always has a next state, and it is one of four: still Running with pc advanced by the
instruction's length; Halted, by HLT; Faulted with the undecodable byte; Faulted by an add or subtract with an integer
outside 0 to 255. That the fault carries that integer is the spec's decision D4 (log 4). -/
def Obligations.RunningStepHasOneOfFourOutcomes : Prop :=
  ∀ (c : Config) (s : State), s.status = .running → ∃ t, stepWith c s = .next t ∧
    ((t.status = .running ∧ ∃ i rest, decode c (fetchWindow s) = .ok (i, rest) ∧ i ≠ .hlt ∧
        t.pc = s.pc + BitVec.ofNat 8 (encode c i).length) ∨
     (t.status = .halted ∧ decodeOpcode c (memRead s.pc s) = some .hlt) ∨
     (t.status = .faulted (.illegalInstruction (memRead s.pc s)) ∧ decodeOpcode c (memRead s.pc s) = none) ∨
     (∃ v, (v < 0 ∨ 255 < v) ∧ t.status = .faulted (.outOfRange v) ∧
        ∃ m, decodeOpcode c (memRead s.pc s) = some m ∧ m ∈ [Mnemonic.adda, .addb, .subba, .subab]))

/-- R26, R28, R98: every step moves pc by the length of the instruction it runs, halting and faulting ones included,
and an undecodable byte by one (that last is the spec's decision D3, log 3). -/
def Obligations.PcMovesByTheInstructionLength : Prop :=
  ∀ (c : Config) (s t : State), stepWith c s = .next t →
    (∀ i rest, decode c (fetchWindow s) = .ok (i, rest) → t.pc = s.pc + BitVec.ofNat 8 (encode c i).length) ∧
    (decodeOpcode c (memRead s.pc s) = none → t.pc = s.pc + 1#8)

/-- R27 and the consequences it derives: the increment is modulo 256 and changes pc alone; at 255 a one-byte
instruction leaves pc = 0, and a two-byte one takes its operand from address 0 and leaves pc = 1. -/
def Obligations.PcWrapsFromTheTop : Prop :=
  (∀ s : State, (incPc s).pc.toNat = (s.pc.toNat + 1) % 256 ∧ incPc s = { s with pc := (incPc s).pc }) ∧
  ∀ (c : Config) (s t : State) (i : Instr), c.admissible = true → s.pc = 0xFF#8 → stepWith c s = .next t →
    (encode c i = [memRead 0xFF#8 s] → t.pc = 0x00#8) ∧
    (encode c i = [memRead 0xFF#8 s, memRead 0x00#8 s] → t.pc = 0x01#8)

/-! ## What each instruction does. Each equation gives the result, the whole frame and that it completes. -/

/-- R97: HLT, for every admissible OPC (its byte 0x00 is the source's): status becomes Halted, pc is one past the
byte, nothing else changes, and no further step is enabled (R97, R90; how the model answers one is log 6). -/
def Obligations.HltHalts : Prop :=
  (∀ s : State, exec .hlt s = .next { s with status := .halted }) ∧
  ∀ (c : Config) (s : State), c.admissible = true → s.status = .running → memRead s.pc s = 0x00#8 →
    stepWith c s = .next { s with pc := s.pc + 1#8, status := .halted } ∧
    ∀ u, stepWith c { s with pc := s.pc + 1#8, status := .halted } ≠ .next u

/-- R102: OUTA (its byte 0x03 is the source's): OUT becomes A and nothing else but pc changes. -/
def Obligations.OutaCopiesA : Prop :=
  (∀ s : State, exec .outa s = .next { s with OUT := s.A }) ∧
  ∀ (c : Config) (s : State), c.admissible = true → s.status = .running → memRead s.pc s = 0x03#8 →
    stepWith c s = .next { s with OUT := s.A, pc := s.pc + 1#8 }

/-- R103: OUTB: OUT becomes B and nothing else but pc changes. -/
def Obligations.OutbCopiesB : Prop :=
  (∀ s : State, exec .outb s = .next { s with OUT := s.B }) ∧
  ∀ (c : Config) (s : State), c.admissible = true → Fetches c s .outb →
    stepWith c s = .next { s with OUT := s.B, pc := s.pc + 1#8 }

/-- R100, R101: OUTL and OUTR: OUT becomes the operand, or the cell the operand names; pc moves past both bytes. -/
def Obligations.OutlAndOutrSetOut : Prop :=
  (∀ (s : State) (lit : Byte), exec (.outl lit) s = .next { s with OUT := lit, pc := s.pc + 1#8 }) ∧
  (∀ (s : State) (addr : Addr),
    exec (.outr addr) s = .next { s with OUT := memRead addr s, pc := s.pc + 1#8 }) ∧
  ∀ (c : Config) (s : State), c.admissible = true →
    (Fetches c s .outl → stepWith c s = .next { s with OUT := operandByte s, pc := s.pc + 2#8 }) ∧
    (Fetches c s .outr → stepWith c s = .next { s with OUT := memRead (operandByte s) s, pc := s.pc + 2#8 })

/-- R110: MOVLA (its byte 0x11 is the source's): A becomes the byte after the opcode, pc moves past both, nothing else
changes; at p = 255 that byte is mem[0] and pc becomes 1. -/
def Obligations.MovlaLoadsLiteral : Prop :=
  (∀ (s : State) (lit : Byte), exec (.movla lit) s = .next { s with A := lit, pc := s.pc + 1#8 }) ∧
  (∀ (c : Config) (s : State), c.admissible = true → s.status = .running → memRead s.pc s = 0x11#8 →
    stepWith c s = .next { s with A := memRead (s.pc + 1#8) s, pc := s.pc + 2#8 } ∧
    (s.pc = 0xFF#8 → stepWith c s = .next { s with A := memRead 0x00#8 s, pc := 0x01#8 }))

/-- R111: MOVLB (its byte 0x12 is the source's): B becomes the byte after the opcode, as R110 with A and B exchanged. -/
def Obligations.MovlbLoadsLiteral : Prop :=
  (∀ (s : State) (lit : Byte), exec (.movlb lit) s = .next { s with B := lit, pc := s.pc + 1#8 }) ∧
  (∀ (c : Config) (s : State), c.admissible = true → s.status = .running → memRead s.pc s = 0x12#8 →
    stepWith c s = .next { s with B := memRead (s.pc + 1#8) s, pc := s.pc + 2#8 } ∧
    (s.pc = 0xFF#8 → stepWith c s = .next { s with B := memRead 0x00#8 s, pc := 0x01#8 }))

/-- R112, R113: MOVRA and MOVRB: the register becomes the cell the operand names. -/
def Obligations.MovraAndMovrbLoadACell : Prop :=
  (∀ (s : State) (addr : Addr), exec (.movra addr) s = .next { s with A := memRead addr s, pc := s.pc + 1#8 }) ∧
  (∀ (s : State) (addr : Addr), exec (.movrb addr) s = .next { s with B := memRead addr s, pc := s.pc + 1#8 }) ∧
  ∀ (c : Config) (s : State), c.admissible = true →
    (Fetches c s .movra → stepWith c s = .next { s with A := memRead (operandByte s) s, pc := s.pc + 2#8 }) ∧
    (Fetches c s .movrb → stepWith c s = .next { s with B := memRead (operandByte s) s, pc := s.pc + 2#8 })

/-- R114, R115: MOVAR and MOVBR: the cell the operand names takes the register, every other cell reads as before,
and nothing but memory and pc changes; the instruction's own bytes are no exception. -/
def Obligations.MovarAndMovbrStoreOneCell : Prop :=
  (∀ (s : State) (addr : Addr), ∃ t, exec (.movar addr) s = .next t ∧ memRead addr t = s.A ∧
    (∀ a, a ≠ addr → memRead a t = memRead a s) ∧ t = { s with mem := t.mem, pc := s.pc + 1#8 }) ∧
  (∀ (s : State) (addr : Addr), ∃ t, exec (.movbr addr) s = .next t ∧ memRead addr t = s.B ∧
    (∀ a, a ≠ addr → memRead a t = memRead a s) ∧ t = { s with mem := t.mem, pc := s.pc + 1#8 }) ∧
  ∀ (c : Config) (s : State), c.admissible = true →
    (Fetches c s .movar → ∃ t, stepWith c s = .next t ∧ memRead (operandByte s) t = s.A ∧
      (∀ a, a ≠ operandByte s → memRead a t = memRead a s) ∧ t = { s with mem := t.mem, pc := s.pc + 2#8 }) ∧
    (Fetches c s .movbr → ∃ t, stepWith c s = .next t ∧ memRead (operandByte s) t = s.B ∧
      (∀ a, a ≠ operandByte s → memRead a t = memRead a s) ∧ t = { s with mem := t.mem, pc := s.pc + 2#8 })

/-- R120 to R122: ADDA and ADDB where the true sum is a byte: the destination takes it and nothing else but pc
changes. -/
def Obligations.AddInRangeWritesTheSum : Prop :=
  ∀ s : State, s.A.toNat + s.B.toNat ≤ 255 →
    exec .adda s = .next { s with A := BitVec.ofNat 8 (s.A.toNat + s.B.toNat) } ∧
    exec .addb s = .next { s with B := BitVec.ofNat 8 (s.A.toNat + s.B.toNat) } ∧
    ∀ c : Config, c.admissible = true →
      (Fetches c s .adda →
        stepWith c s = .next { s with A := BitVec.ofNat 8 (s.A.toNat + s.B.toNat), pc := s.pc + 1#8 }) ∧
      (Fetches c s .addb →
        stepWith c s = .next { s with B := BitVec.ofNat 8 (s.A.toNat + s.B.toNat), pc := s.pc + 1#8 })

/-- R120, R123: SUBBA where B is not greater than A: A becomes A - B. -/
def Obligations.SubbaInRangeWritesTheDifference : Prop :=
  ∀ s : State, s.B.toNat ≤ s.A.toNat →
    exec .subba s = .next { s with A := BitVec.ofNat 8 (s.A.toNat - s.B.toNat) } ∧
    ∀ c : Config, c.admissible = true → Fetches c s .subba →
      stepWith c s = .next { s with A := BitVec.ofNat 8 (s.A.toNat - s.B.toNat), pc := s.pc + 1#8 }

/-- R120, R124: SUBAB where A is not greater than B: B becomes B - A. -/
def Obligations.SubabInRangeWritesTheDifference : Prop :=
  ∀ s : State, s.A.toNat ≤ s.B.toNat →
    exec .subab s = .next { s with B := BitVec.ofNat 8 (s.B.toNat - s.A.toNat) } ∧
    ∀ c : Config, c.admissible = true → Fetches c s .subab →
      stepWith c s = .next { s with B := BitVec.ofNat 8 (s.B.toNat - s.A.toNat), pc := s.pc + 1#8 }

/-- R120 to R124, R142: out of range, the four instructions fault and change nothing but status (and pc, already
advanced). The payload is the spec's decision D4 (log 4), the kept destination its decision D16 (log 5). -/
def Obligations.ArithmeticOutOfRangeFaults : Prop :=
  ∀ s : State,
    (256 ≤ s.A.toNat + s.B.toNat →
      exec .adda s = .next { s with status := .faulted (.outOfRange ((s.A.toNat : Int) + s.B.toNat)) } ∧
      exec .addb s = .next { s with status := .faulted (.outOfRange ((s.A.toNat : Int) + s.B.toNat)) }) ∧
    (s.A.toNat < s.B.toNat →
      exec .subba s = .next { s with status := .faulted (.outOfRange ((s.A.toNat : Int) - s.B.toNat)) }) ∧
    (s.B.toNat < s.A.toNat →
      exec .subab s = .next { s with status := .faulted (.outOfRange ((s.B.toNat : Int) - s.A.toNat)) })

/-- R120 point 3: from a Running state, a sum faults with OutOfRange exactly when it is 256 or more, a difference exactly
when the subtrahend is the greater, and otherwise status stays Running. Which integer the fault carries is left open here. -/
def Obligations.ArithmeticFaultsExactlyOutOfRange : Prop :=
  ∀ (c : Config) (s t : State), c.admissible = true → stepWith c s = .next t →
    (Fetches c s .adda ∨ Fetches c s .addb →
      ((∃ v, t.status = .faulted (.outOfRange v)) ↔ 256 ≤ s.A.toNat + s.B.toNat) ∧
      (t.status = .running ↔ s.A.toNat + s.B.toNat ≤ 255)) ∧
    (Fetches c s .subba →
      ((∃ v, t.status = .faulted (.outOfRange v)) ↔ s.A.toNat < s.B.toNat) ∧
      (t.status = .running ↔ s.B.toNat ≤ s.A.toNat)) ∧
    (Fetches c s .subab →
      ((∃ v, t.status = .faulted (.outOfRange v)) ↔ s.B.toNat < s.A.toNat) ∧
      (t.status = .running ↔ s.A.toNat ≤ s.B.toNat))

/-- R131, R132: ANDA and ANDB: the destination becomes A & B and nothing else but pc changes. -/
def Obligations.AndaAndAndbWriteTheConjunction : Prop :=
  (∀ s : State, exec .anda s = .next { s with A := s.A &&& s.B }) ∧
  (∀ s : State, exec .andb s = .next { s with B := s.A &&& s.B }) ∧
  ∀ (c : Config) (s : State), c.admissible = true →
    (Fetches c s .anda → stepWith c s = .next { s with A := s.A &&& s.B, pc := s.pc + 1#8 }) ∧
    (Fetches c s .andb → stepWith c s = .next { s with B := s.A &&& s.B, pc := s.pc + 1#8 })

/-- R134: ORB: B becomes A | B and nothing else but pc changes. -/
def Obligations.OrbWritesTheDisjunction : Prop :=
  (∀ s : State, exec .orb s = .next { s with B := s.A ||| s.B }) ∧
  ∀ (c : Config) (s : State), c.admissible = true → Fetches c s .orb →
    stepWith c s = .next { s with B := s.A ||| s.B, pc := s.pc + 1#8 }

/-- R133: ORA writes A | B to the register ORA_DEST names, both values covered; at the default it has exactly the
effect of ORB. The default is the spec's decision D2 (log 2). -/
def Obligations.OraWritesTheRegisterOfOraDest : Prop :=
  (∀ s : State, exec .ora s = .next { s with B := s.A ||| s.B }) ∧
  ∀ (c : Config) (s : State), c.admissible = true → Fetches c s .ora →
    (c.oraDest = .B → stepWith c s = .next { s with B := s.A ||| s.B, pc := s.pc + 1#8 }) ∧
    (c.oraDest = .A → stepWith c s = .next { s with A := s.A ||| s.B, pc := s.pc + 1#8 })

/-- R130: the four logic instructions work bit by bit, cannot fault and write no flag; ORA for both values of
ORA_DEST. -/
def Obligations.LogicIsBitwiseAndCannotFault : Prop :=
  ∀ (c : Config) (s : State) (j : Nat), j < 8 →
    (∃ t, execWith c .anda s = .next t ∧ t.A.getLsbD j = (s.A.getLsbD j && s.B.getLsbD j) ∧
      t.status = s.status ∧ t.FLAGS = s.FLAGS) ∧
    (∃ t, execWith c .andb s = .next t ∧ t.B.getLsbD j = (s.A.getLsbD j && s.B.getLsbD j) ∧
      t.status = s.status ∧ t.FLAGS = s.FLAGS) ∧
    (∃ t, execWith c .ora s = .next t ∧ (readGpr c.oraDest t).getLsbD j = (s.A.getLsbD j || s.B.getLsbD j) ∧
      t.status = s.status ∧ t.FLAGS = s.FLAGS) ∧
    (∃ t, execWith c .orb s = .next t ∧ t.B.getLsbD j = (s.A.getLsbD j || s.B.getLsbD j) ∧
      t.status = s.status ∧ t.FLAGS = s.FLAGS)

/-! ## Rules over all instructions -/

/-- R20, R33: which instructions can change which register, and what can change status. -/
def Obligations.OnlyTheListedInstructionsWriteEachRegister : Prop :=
  ∀ (c : Config) (s t : State), stepWith c s = .next t →
    (t.A ≠ s.A → ∃ m, decodeOpcode c (memRead s.pc s) = some m ∧
      (m ∈ [Mnemonic.movla, .movra, .adda, .subba, .anda] ∨ (m = .ora ∧ c.oraDest = .A))) ∧
    (t.B ≠ s.B → ∃ m, decodeOpcode c (memRead s.pc s) = some m ∧
      (m ∈ [Mnemonic.movlb, .movrb, .addb, .subab, .andb, .orb] ∨ (m = .ora ∧ c.oraDest = .B))) ∧
    (t.OUT ≠ s.OUT → ∃ m, decodeOpcode c (memRead s.pc s) = some m ∧
      m ∈ [Mnemonic.outl, .outr, .outa, .outb]) ∧
    (t.status ≠ s.status → ∀ m, decodeOpcode c (memRead s.pc s) = some m →
      m ∈ [Mnemonic.hlt, .adda, .addb, .subba, .subab])

/-- R33, R43, R52: the only cell an execute stage can change is the one a store's operand names; every other
instruction leaves every byte of memory as it was. -/
def Obligations.OnlyTheAddressedCellOfAStoreChanges : Prop :=
  ∀ (c : Config) (i : Instr) (s t : State) (a : Addr), execWith c i s = .next t →
    memRead a t ≠ memRead a s → i = .movar a ∨ i = .movbr a

/-- R24, R33: no step reads or writes the legacy register. -/
def Obligations.FlagsAreNeitherReadNorWritten : Prop :=
  ∀ (c : Config) (s t : State) (f : BitVec 2), stepWith c s = .next t →
    t.FLAGS = s.FLAGS ∧ stepWith c { s with FLAGS := f } = .next { t with FLAGS := f }

/-- R23, R24, R179: OUT and FLAGS never influence execution, over runs of any length. -/
def Obligations.OutAndFlagsNeverInfluenceARun : Prop :=
  ∀ (c : Config) (fuel : Nat) (s s' : State), SameButOutAndFlags s s' →
    (∀ t, runFor c fuel s = .ended t → ∃ t', runFor c fuel s' = .ended t' ∧ SameButOutAndFlags t t') ∧
    (∀ t, runFor c fuel s = .outOfFuel t → ∃ t', runFor c fuel s' = .outOfFuel t' ∧ SameButOutAndFlags t t')

/-- R147, R146: a step that faults has changed pc, by one, and status, and nothing else. That pc is advanced at an
undecodable byte is the spec's decision D3 (log 3), the kept destination its decision D16 (log 5). -/
def Obligations.FaultsArePrecise : Prop :=
  ∀ (c : Config) (s t : State) (reason : FaultReason), stepWith c s = .next t → t.status = .faulted reason →
    t = { s with pc := s.pc + 1#8, status := .faulted reason }

/-- R53, R177: a store to the cell after the store instruction is the very next opcode fetched; a stored 0x00 is
executed as HLT (R114). -/
def Obligations.StoreAheadIsTheNextOpcode : Prop :=
  ∀ (c : Config) (s : State), c.admissible = true → operandByte s = s.pc + 2#8 →
    (Fetches c s .movar → ∃ t, stepWith c s = .next t ∧ t.status = .running ∧ memRead t.pc t = s.A ∧
      (s.A = 0x00#8 → ∃ u, stepWith c t = .next u ∧ u.status = .halted)) ∧
    (Fetches c s .movbr → ∃ t, stepWith c s = .next t ∧ t.status = .running ∧ memRead t.pc t = s.B ∧
      (s.B = 0x00#8 → ∃ u, stepWith c t = .next u ∧ u.status = .halted))

/-! ## Memory -/

/-- R43: MemWrite sets the one cell, which every later read gives back (opcode fetch, operand fetch and data read are
all `memRead`), and leaves every other cell and everything else of the state as it was. -/
def Obligations.MemWriteSetsOneCell : Prop :=
  ∀ (s : State) (a : Addr) (v : Byte),
    memRead a (memWrite a v s) = v ∧
    (∀ b, b ≠ a → memRead b (memWrite a v s) = memRead b s) ∧
    memWrite a v s = { s with mem := (memWrite a v s).mem }

/-- The model's canonical form: two memories in it that read alike on the 256 addresses are the same data (R30, R40). -/
def Obligations.EqualReadsMeanEqualMemories : Prop :=
  ∀ m m' : Memory, m.wf = true → m'.wf = true → (∀ a : Addr, m.read a.toNat = m'.read a.toNat) → m = m'

/-- R44, R143: the Memory component's checks cannot fire on bytes, where the checked forms are the plain ones, and
reject every address or value outside 0 to 255. That the checked forms stand beside the step is the model's choice
(log 26), and so is what an error carries, the offending integer, and that a write with both a bad address and a bad
value reports the address (log 27). -/
def Obligations.MemoryChecksFireOnlyOutsideBytes : Prop :=
  ∀ m : Memory,
    (∀ a : Addr, m.checkedRead a.toNat = .ok (m.read a.toNat)) ∧
    (∀ (a : Addr) (v : Byte), m.checkedWrite a.toNat v.toNat = .ok (m.write a.toNat v)) ∧
    (∀ a : Int, a < 0 ∨ 255 < a → m.checkedRead a = .error (.invalidAddress a)) ∧
    (∀ a v : Int, a < 0 ∨ 255 < a → m.checkedWrite a v = .error (.outOfRange a)) ∧
    (∀ (a : Addr) (v : Int), v < 0 ∨ 255 < v → m.checkedWrite a.toNat v = .error (.outOfRange v))

/-! ## Invariant -/

/-- Every step keeps the invariant: canonical memory, FLAGS = 0 (R24), and a fault reason that names an undecodable
byte or an integer the arithmetic can produce (R141, R142; the integer is the spec's decision D4, log 4). -/
def Obligations.EveryStepKeepsTheInvariant : Prop :=
  ∀ (c : Config) (s t : State), Inv c s → stepWith c s = .next t → Inv c t

/-- R34: the state after reset has the invariant, for every value of the parameters. -/
def Obligations.ResetHasTheInvariant : Prop :=
  ∀ c : Config, Inv c State.reset

/-- R24, R29: every state that a load and any steps lead to has the invariant, so FLAGS = 0 there. -/
def Obligations.ReachableStatesHaveTheInvariant : Prop :=
  ∀ (c : Config) (s : State), Reachable c s → Inv c s ∧ s.FLAGS = 0#2

/-! ## Load and run -/

/-- R34, R170: after a load of any legal image, given in any state or before the first load, every piece of state has
its value: registers 0, pc 0, Running, the image from address 0 and 0 beyond it; and before the first load no step is
defined. That load is allowed in any state is the spec's decision D9 (log 11), the placement from address 0 its D10
(log 18), the missing step before the first load its D7 (log 12). -/
def Obligations.LoadGivesEveryResetValue : Prop :=
  ∀ (c : Config) (img : List Int) (before : Option State), imageWellFormed img = true →
    (∃ t, perform c (.load img) before = .next t ∧
      t.pc = 0#8 ∧ t.A = 0#8 ∧ t.B = 0#8 ∧ t.OUT = 0#8 ∧ t.FLAGS = 0#2 ∧ t.status = .running ∧
      ∀ a : Addr, ((memRead a t).toNat : Int) = img.getD a.toNat 0) ∧
    ∀ u, perform c .step none ≠ .next u

/-- R172: a load of any other image is refused as a whole, in every state: the spec's decision D8 (log 10). -/
def Obligations.LoadRefusesEveryOtherImage : Prop :=
  ∀ (c : Config) (img : List Int) (before : Option State), imageWellFormed img = false →
    ∃ r, perform c (.load img) before = .refused r ∧
      (r = .imageTooLong img.length ∧ 256 < img.length ∨
       ∃ v, r = .imageElementOutOfRange v ∧ v ∈ img ∧ (v < 0 ∨ 255 < v))

/-- R170: the state after reset is a load of the empty image, and its first step executes HLT at address 0. -/
def Obligations.ResetIsTheEmptyLoadAndHalts : Prop :=
  loadImage [] = .next State.reset ∧
  step State.reset = .next { State.reset with pc := 0x01#8, status := .halted }

/-- R96, R14, R181: a run is the step repeated while Running; it ends in a state where it is over, successfully in
Halted and otherwise Faulted, which more fuel does not change, and out of fuel it is still Running. -/
def Obligations.RunRepeatsTheStepUntilNotRunning : Prop :=
  ∀ (c : Config) (fuel : Nat) (s : State),
    (∀ t, stepWith c s = .next t → runFor c (fuel + 1) s = runFor c fuel t) ∧
    (∀ t, runFor c fuel s = .ended t → runOver t = true ∧
      (successfulEnd t = false → ∃ reason, t.status = .faulted reason) ∧
      ∀ more, runFor c (fuel + more) s = .ended t) ∧
    (∀ t, runFor c fuel s = .outOfFuel t → t.status = .running)

/-- R179: a run either reaches a terminal state or is eventually periodic. The invariant rules out memories that list
an address twice or beyond 255, of which no run has any. -/
def Obligations.EveryRunEndsOrRepeats : Prop :=
  ∀ (c : Config) (s : State), Inv c s →
    (∃ fuel t, runFor c fuel s = .ended t) ∨
    (∃ i j t, i < j ∧ runFor c i s = .outOfFuel t ∧ runFor c j s = .outOfFuel t)
end

