-- ==== Sys2Proof/Laws/Decode.lean ====
section
/-! SUPPORT. Laws/Decode.lean: what the opcode lookup and the shapes say, for every OPC. -/

namespace Sys2Proof

theorem Mnemonic.mem_all (m : Mnemonic) : m ∈ Mnemonic.all := by
  cases m <;> decide

/-- A byte that decodes is the opcode byte of what it decodes to. -/
theorem decodeOpcode_some {c : Config} {b : Byte} {m : Mnemonic} (h : decodeOpcode c b = some m) : c.opc m = b := by
  simpa using List.find?_some h

theorem decodeOpcode_none {c : Config} {b : Byte} (h : decodeOpcode c b = none) (m : Mnemonic) : c.opc m ≠ b := by
  have := List.find?_eq_none.mp h m (Mnemonic.mem_all m)
  simpa using this

/-- Two operations with one opcode byte are one operation. -/
theorem Config.opc_injective {c : Config} (h : c.opcInjective = true) {m m' : Mnemonic} (hm : c.opc m = c.opc m') :
    m = m' := by
  have hnd : (Mnemonic.all.map c.opc).Nodup := by simpa [Config.opcInjective] using h
  exact List.inj_on_of_nodup_map hnd (Mnemonic.mem_all m) (Mnemonic.mem_all m') hm

theorem Config.admissible_injective {c : Config} (h : c.admissible = true) : c.opcInjective = true := by
  simp only [Config.admissible, Bool.and_eq_true] at h
  exact h.1.1

/-- Under an injective OPC, an operation's opcode byte decodes to that operation. -/
theorem decodeOpcode_opc {c : Config} (h : c.opcInjective = true) (m : Mnemonic) : decodeOpcode c (c.opc m) = some m := by
  cases hd : decodeOpcode c (c.opc m) with
  | none => exact absurd rfl (decodeOpcode_none hd m)
  | some m' => rw [Config.opc_injective h (decodeOpcode_some hd)]

/-- An instruction is rebuilt from its mnemonic's shape and, where it has one, its operand byte. -/
theorem encode_shape (c : Config) (i : Instr) :
    (i.mnemonic.shape = .noOperand i ∧ encode c i = [c.opc i.mnemonic]) ∨
    (∃ build opnd, i.mnemonic.shape = .operand build ∧ build opnd = i ∧ encode c i = [c.opc i.mnemonic, opnd]) := by
  cases i
  all_goals first
    | exact .inl ⟨rfl, rfl⟩
    | exact .inr ⟨_, _, rfl, rfl, rfl⟩

/-- The shape of a mnemonic builds instructions of that mnemonic. -/
theorem Mnemonic.shape_cases (m : Mnemonic) :
    (∃ i, m.shape = .noOperand i ∧ i.mnemonic = m) ∨
    (∃ build, m.shape = .operand build ∧ ∀ opnd, (build opnd).mnemonic = m) := by
  cases m
  all_goals first
    | exact .inl ⟨_, rfl, rfl⟩
    | exact .inr ⟨_, rfl, fun _ => rfl⟩

theorem defaultConfig_admissible : defaultConfig.admissible = true := by decide

/-- R71, R44: every operand byte is legal, so every instruction is well formed. -/
theorem Instr.wellFormed_all (i : Instr) : i.wellFormed = true := by
  cases i <;> simp only [Instr.wellFormed, decide_eq_true_eq, Config.maxByte, Config.memSize] <;> omega

/-- The sizes of R6 are those of the types. -/
theorem Config.sizes_agree :
    2 ^ Config.alen = Config.memSize ∧ (2 : Int) ^ Config.xlen - 1 = Config.maxByte ∧
    Mnemonic.all.length = Config.nops ∧ Mnemonic.all.Nodup := by
  decide

end Sys2Proof
end

