-- ==== Sys2Proof/Laws/State.lean ====
section
/-! SUPPORT. Laws/State.lean: what each update of the state does to each field, so that no proof unfolds a record
update. -/

namespace Sys2Proof.Machine

@[simp] theorem keepPc_eq (s : State) : keepPc s = s := rfl

@[simp] theorem readGpr_A (s : State) : readGpr .A s = s.A := rfl

@[simp] theorem readGpr_B (s : State) : readGpr .B s = s.B := rfl

@[simp] theorem incPc_A (s : State) : (incPc s).A = s.A := rfl

@[simp] theorem incPc_B (s : State) : (incPc s).B = s.B := rfl

@[simp] theorem incPc_OUT (s : State) : (incPc s).OUT = s.OUT := rfl

@[simp] theorem incPc_FLAGS (s : State) : (incPc s).FLAGS = s.FLAGS := rfl

@[simp] theorem incPc_pc (s : State) : (incPc s).pc = s.pc + 1#8 := rfl

@[simp] theorem incPc_status (s : State) : (incPc s).status = s.status := rfl

@[simp] theorem incPc_mem (s : State) : (incPc s).mem = s.mem := rfl

@[simp] theorem raise_A (reason : FaultReason) (s : State) : (raise reason s).A = s.A := rfl

@[simp] theorem raise_B (reason : FaultReason) (s : State) : (raise reason s).B = s.B := rfl

@[simp] theorem raise_OUT (reason : FaultReason) (s : State) : (raise reason s).OUT = s.OUT := rfl

@[simp] theorem raise_FLAGS (reason : FaultReason) (s : State) : (raise reason s).FLAGS = s.FLAGS := rfl

@[simp] theorem raise_pc (reason : FaultReason) (s : State) : (raise reason s).pc = s.pc := rfl

@[simp] theorem raise_status (reason : FaultReason) (s : State) : (raise reason s).status = .faulted reason := rfl

@[simp] theorem raise_mem (reason : FaultReason) (s : State) : (raise reason s).mem = s.mem := rfl

@[simp] theorem halt_A (s : State) : (halt s).A = s.A := rfl

@[simp] theorem halt_B (s : State) : (halt s).B = s.B := rfl

@[simp] theorem halt_OUT (s : State) : (halt s).OUT = s.OUT := rfl

@[simp] theorem halt_FLAGS (s : State) : (halt s).FLAGS = s.FLAGS := rfl

@[simp] theorem halt_pc (s : State) : (halt s).pc = s.pc := rfl

@[simp] theorem halt_status (s : State) : (halt s).status = .halted := rfl

@[simp] theorem halt_mem (s : State) : (halt s).mem = s.mem := rfl

@[simp] theorem memWrite_A (a : Addr) (v : Byte) (s : State) : (memWrite a v s).A = s.A := rfl

@[simp] theorem memWrite_B (a : Addr) (v : Byte) (s : State) : (memWrite a v s).B = s.B := rfl

@[simp] theorem memWrite_OUT (a : Addr) (v : Byte) (s : State) : (memWrite a v s).OUT = s.OUT := rfl

@[simp] theorem memWrite_FLAGS (a : Addr) (v : Byte) (s : State) : (memWrite a v s).FLAGS = s.FLAGS := rfl

@[simp] theorem memWrite_pc (a : Addr) (v : Byte) (s : State) : (memWrite a v s).pc = s.pc := rfl

@[simp] theorem memWrite_status (a : Addr) (v : Byte) (s : State) : (memWrite a v s).status = s.status := rfl

@[simp] theorem memWrite_mem (a : Addr) (v : Byte) (s : State) : (memWrite a v s).mem = s.mem.write a.toNat v := rfl

@[simp] theorem setRegA_A (v : Byte) (s : State) : (setReg (.gpr .A) v s).A = v := rfl

@[simp] theorem setRegA_B (v : Byte) (s : State) : (setReg (.gpr .A) v s).B = s.B := rfl

@[simp] theorem setRegA_OUT (v : Byte) (s : State) : (setReg (.gpr .A) v s).OUT = s.OUT := rfl

@[simp] theorem setRegA_FLAGS (v : Byte) (s : State) : (setReg (.gpr .A) v s).FLAGS = s.FLAGS := rfl

@[simp] theorem setRegA_pc (v : Byte) (s : State) : (setReg (.gpr .A) v s).pc = s.pc := rfl

@[simp] theorem setRegA_status (v : Byte) (s : State) : (setReg (.gpr .A) v s).status = s.status := rfl

@[simp] theorem setRegA_mem (v : Byte) (s : State) : (setReg (.gpr .A) v s).mem = s.mem := rfl

@[simp] theorem setRegB_A (v : Byte) (s : State) : (setReg (.gpr .B) v s).A = s.A := rfl

@[simp] theorem setRegB_B (v : Byte) (s : State) : (setReg (.gpr .B) v s).B = v := rfl

@[simp] theorem setRegB_OUT (v : Byte) (s : State) : (setReg (.gpr .B) v s).OUT = s.OUT := rfl

@[simp] theorem setRegB_FLAGS (v : Byte) (s : State) : (setReg (.gpr .B) v s).FLAGS = s.FLAGS := rfl

@[simp] theorem setRegB_pc (v : Byte) (s : State) : (setReg (.gpr .B) v s).pc = s.pc := rfl

@[simp] theorem setRegB_status (v : Byte) (s : State) : (setReg (.gpr .B) v s).status = s.status := rfl

@[simp] theorem setRegB_mem (v : Byte) (s : State) : (setReg (.gpr .B) v s).mem = s.mem := rfl

@[simp] theorem setRegOut_A (v : Byte) (s : State) : (setReg .out v s).A = s.A := rfl

@[simp] theorem setRegOut_B (v : Byte) (s : State) : (setReg .out v s).B = s.B := rfl

@[simp] theorem setRegOut_OUT (v : Byte) (s : State) : (setReg .out v s).OUT = v := rfl

@[simp] theorem setRegOut_FLAGS (v : Byte) (s : State) : (setReg .out v s).FLAGS = s.FLAGS := rfl

@[simp] theorem setRegOut_pc (v : Byte) (s : State) : (setReg .out v s).pc = s.pc := rfl

@[simp] theorem setRegOut_status (v : Byte) (s : State) : (setReg .out v s).status = s.status := rfl

@[simp] theorem setRegOut_mem (v : Byte) (s : State) : (setReg .out v s).mem = s.mem := rfl

/-- Memory is read through the memory field alone. -/
theorem memRead_eq (a : Addr) (s : State) : memRead a s = s.mem.read a.toNat := rfl

@[simp] theorem memRead_incPc (a : Addr) (s : State) : memRead a (incPc s) = memRead a s := rfl

@[simp] theorem memRead_raise (a : Addr) (reason : FaultReason) (s : State) : memRead a (raise reason s) = memRead a s := rfl

@[simp] theorem memRead_halt (a : Addr) (s : State) : memRead a (halt s) = memRead a s := rfl

@[simp] theorem memRead_setReg (a : Addr) (r : Dest) (v : Byte) (s : State) :
    memRead a (setReg r v s) = memRead a s := by
  cases r with
  | gpr r => cases r <;> rfl
  | out => rfl

end Sys2Proof.Machine
end

