-- ==== Sys2Proof/Laws/Memory.lean ====
section
/-! SUPPORT. Laws/Memory.lean: a read after a write, and that every memory operation keeps the canonical form. -/

namespace Sys2Proof.Machine

theorem Memory.read_remove_same (m : Memory) (a : Nat) : (m.remove a).read a = Memory.unlisted := by
  induction m with
  | nil => rfl
  | cons e m ih =>
    obtain ⟨k, w⟩ := e
    by_cases h : k = a <;> simp [Memory.remove, Memory.read, h, ih]

theorem Memory.read_remove_other (m : Memory) {a b : Nat} (hab : b ≠ a) : (m.remove a).read b = m.read b := by
  induction m with
  | nil => rfl
  | cons e m ih =>
    obtain ⟨k, w⟩ := e
    by_cases h : k = a
    · simp [Memory.remove, Memory.read, h, ih, hab.symm]
    · simp [Memory.remove, Memory.read, h, ih]

theorem Memory.read_place_same (m : Memory) (a : Nat) (v : Byte) : ((m.remove a).place a v).read a = v := by
  induction m with
  | nil => simp [Memory.remove, Memory.place, Memory.read]
  | cons e m ih =>
    obtain ⟨k, w⟩ := e
    by_cases h : k = a
    · simp [Memory.remove, h, ih]
    · by_cases hlt : a < k <;> simp [Memory.remove, Memory.place, Memory.read, h, hlt, ih]

theorem Memory.read_place_other (m : Memory) {a b : Nat} (v : Byte) (hab : b ≠ a) : (m.place a v).read b = m.read b := by
  induction m with
  | nil => simp [Memory.place, Memory.read, hab.symm]
  | cons e m ih =>
    obtain ⟨k, w⟩ := e
    by_cases hlt : a < k
    · simp [Memory.place, Memory.read, hlt, hab.symm]
    · simp [Memory.place, Memory.read, hlt, ih]

/-- A read of the cell written gives the value written. -/
@[simp] theorem Memory.read_write_same (m : Memory) (a : Nat) (v : Byte) : (m.write a v).read a = v := by
  by_cases hv : v = Memory.unlisted
  · simp [Memory.write, hv, Memory.read_remove_same]
  · simp [Memory.write, hv, Memory.read_place_same]

/-- A read of any other cell gives what it gave before the write. -/
theorem Memory.read_write_other (m : Memory) {a b : Nat} (v : Byte) (hab : b ≠ a) : (m.write a v).read b = m.read b := by
  by_cases hv : v = Memory.unlisted
  · simp [Memory.write, hv, Memory.read_remove_other m hab]
  · simp [Memory.write, hv, Memory.read_place_other _ v hab, Memory.read_remove_other m hab]

theorem Memory.wfFrom_cons (lo k : Nat) (v : Byte) (m : Memory) :
    Memory.wfFrom lo ((k, v) :: m) = true ↔
      lo ≤ k ∧ k < 256 ∧ v ≠ Memory.unlisted ∧ Memory.wfFrom (k + 1) m = true := by
  simp only [Memory.wfFrom, Config.memSize, Bool.and_eq_true, decide_eq_true_eq, and_assoc]

theorem Memory.wfFrom_weaken {lo lo' : Nat} (hle : lo' ≤ lo) {m : Memory} (h : Memory.wfFrom lo m = true) :
    Memory.wfFrom lo' m = true := by
  cases m with
  | nil => rfl
  | cons e m =>
    obtain ⟨k, v⟩ := e
    rw [Memory.wfFrom_cons] at h ⊢
    exact ⟨le_trans hle h.1, h.2⟩

/-- Below the first listed address nothing is listed. -/
theorem Memory.read_below {lo a : Nat} {m : Memory} (h : Memory.wfFrom lo m = true) (ha : a < lo) :
    m.read a = Memory.unlisted := by
  induction m generalizing lo with
  | nil => rfl
  | cons e m ih =>
    obtain ⟨k, v⟩ := e
    rw [Memory.wfFrom_cons] at h
    have hk : k ≠ a := by omega
    simpa [Memory.read, hk] using ih h.2.2.2 (by omega)

theorem Memory.remove_wfFrom {lo : Nat} {m : Memory} (a : Nat) (h : Memory.wfFrom lo m = true) :
    Memory.wfFrom lo (m.remove a) = true := by
  induction m generalizing lo with
  | nil => rfl
  | cons e m ih =>
    obtain ⟨k, v⟩ := e
    rw [Memory.wfFrom_cons] at h
    by_cases hk : k = a
    · simpa [Memory.remove, hk] using Memory.wfFrom_weaken (by omega : lo ≤ k + 1) (ih h.2.2.2)
    · simp only [Memory.remove, hk, if_false, Memory.wfFrom_cons]
      exact ⟨h.1, h.2.1, h.2.2.1, ih h.2.2.2⟩

theorem Memory.place_remove_wfFrom {lo a : Nat} {m : Memory} {v : Byte} (hv : v ≠ Memory.unlisted) (hlo : lo ≤ a)
    (ha : a < 256) (h : Memory.wfFrom lo m = true) : Memory.wfFrom lo ((m.remove a).place a v) = true := by
  induction m generalizing lo with
  | nil => simpa [Memory.remove, Memory.place, Memory.wfFrom] using ⟨⟨hlo, ha⟩, hv⟩
  | cons e m ih =>
    obtain ⟨k, w⟩ := e
    have hcons := (Memory.wfFrom_cons lo k w m).mp h
    obtain ⟨h1, h2, h3, h4⟩ := hcons
    by_cases hk : k = a
    · subst hk
      have hrest : Memory.wfFrom (k + 1) (Memory.remove m k) = true := Memory.remove_wfFrom k h4
      simp only [Memory.remove, if_true]
      cases hm : Memory.remove m k with
      | nil => simpa [Memory.place, Memory.wfFrom] using ⟨⟨hlo, ha⟩, hv⟩
      | cons e' m' =>
        obtain ⟨k', w'⟩ := e'
        rw [hm] at hrest
        have hk' : k < k' := by
          have := ((Memory.wfFrom_cons _ _ _ _).mp hrest).1
          omega
        simp only [Memory.place, hk', if_true]
        exact (Memory.wfFrom_cons _ _ _ _).mpr ⟨hlo, ha, hv, hrest⟩
    · simp only [Memory.remove, hk, if_false]
      by_cases hlt : a < k
      · simp only [Memory.place, hlt, if_true]
        refine (Memory.wfFrom_cons _ _ _ _).mpr ⟨hlo, ha, hv, ?_⟩
        exact (Memory.wfFrom_cons _ _ _ _).mpr ⟨by omega, h2, h3, Memory.remove_wfFrom a h4⟩
      · simp only [Memory.place, hlt, if_false]
        exact (Memory.wfFrom_cons _ _ _ _).mpr ⟨h1, h2, h3, ih (by omega) h4⟩

/-- Every write to one of the 256 cells keeps the canonical form. -/
theorem Memory.write_wf {m : Memory} {a : Nat} (v : Byte) (ha : a < 256) (h : m.wf = true) : (m.write a v).wf = true := by
  by_cases hv : v = Memory.unlisted
  · simpa [Memory.write, hv, Memory.wf] using Memory.remove_wfFrom a h
  · simpa [Memory.write, hv, Memory.wf] using Memory.place_remove_wfFrom hv (Nat.zero_le a) ha h

theorem State.reset_mem_wf : State.reset.mem.wf = true := rfl

/-- The checked read answers on exactly the 256 addresses. -/
theorem Memory.checkedRead_of_byte (m : Memory) (a : Addr) : m.checkedRead (a.toNat : Int) = .ok (m.read a.toNat) := by
  have := a.isLt
  simp only [Memory.checkedRead, Config.memSize]
  rw [if_pos (by omega)]
  rfl

@[simp] theorem memRead_memWrite_same (a : Addr) (v : Byte) (s : State) : memRead a (memWrite a v s) = v := by
  simp [memRead_eq]

theorem memRead_memWrite_other {a b : Addr} (v : Byte) (s : State) (hab : b ≠ a) :
    memRead b (memWrite a v s) = memRead b s := by
  have : b.toNat ≠ a.toNat := fun h => hab (BitVec.eq_of_toNat_eq h)
  simp [memRead_eq, Memory.read_write_other _ v this]

theorem memWrite_wf (a : Addr) (v : Byte) {s : State} (h : s.mem.wf = true) : (memWrite a v s).mem.wf = true :=
  Memory.write_wf v a.isLt h

theorem storeBytes_wf (a : Addr) (vs : List Byte) {s : State} (h : s.mem.wf = true) :
    (storeBytes a vs s).mem.wf = true := by
  induction vs generalizing a s with
  | nil => exact h
  | cons v vs ih => exact ih (a + 1#8) (memWrite_wf a v h)

end Sys2Proof.Machine
end

