-- ==== Sys2Proof/Laws/Ops.lean ====
section
/-! SUPPORT. Laws/Ops.lean: one lemma per shared operation that says once everything it can do. -/

namespace Sys2Proof.Machine

theorem unsigned_range (b : Byte) : 0 ≤ unsigned b ∧ unsigned b ≤ 255 := by
  have := b.isLt
  simp only [unsigned]
  omega

theorem inByteRange_iff (v : Int) : inByteRange v = true ↔ 0 ≤ v ∧ v ≤ 255 := by
  simp [inByteRange]

/-- A value in range is stored unchanged. -/
theorem narrow_in_range {v : Int} (h : 0 ≤ v ∧ v ≤ 255) : ∃ b : Byte, narrow v = some b ∧ unsigned b = v := by
  refine ⟨BitVec.ofInt 8 v, by simp [narrow, (inByteRange_iff v).mpr h], ?_⟩
  obtain ⟨n, rfl⟩ := Int.eq_ofNat_of_zero_le h.1
  simp only [unsigned, BitVec.toNat_ofInt]
  omega

theorem narrow_out_of_range {v : Int} (h : v < 0 ∨ 255 < v) : narrow v = none := by
  have : ¬ (0 ≤ v ∧ v ≤ 255) := by omega
  simp [narrow, (inByteRange_iff v).not.mpr this]

/-- A byte is always in range, and is what is stored. -/
@[simp] theorem narrow_unsigned (b : Byte) : narrow (unsigned b) = some b := by
  obtain ⟨b', hb', hv⟩ := narrow_in_range (unsigned_range b)
  have : b' = b := BitVec.eq_of_toNat_eq (by simp only [unsigned] at hv; omega)
  rw [hb', this]

/-- A checked write of a byte never fails. -/
@[simp] theorem checkedWrite_byte (r : Dest) (b : Byte) (after : State → State) (s : State) :
    checkedWrite r (unsigned b) after s = .next (after (setReg r b s)) := by
  simp [checkedWrite]

theorem checkedWrite_out_of_range (r : Dest) {v : Int} (h : v < 0 ∨ 255 < v) (after : State → State) (s : State) :
    checkedWrite r v after s = .next (raise (.outOfRange v) s) := by
  simp [checkedWrite, narrow_out_of_range h]

/-- Everything a checked write can do. -/
theorem checkedWrite_cases (r : Dest) (v : Int) (after : State → State) (s : State) :
    (∃ b : Byte, unsigned b = v ∧ checkedWrite r v after s = .next (after (setReg r b s))) ∨
    ((v < 0 ∨ 255 < v) ∧ checkedWrite r v after s = .next (raise (.outOfRange v) s)) := by
  by_cases h : 0 ≤ v ∧ v ≤ 255
  · obtain ⟨b, -, hv⟩ := narrow_in_range h
    exact .inl ⟨b, hv, by rw [← hv, checkedWrite_byte]⟩
  · have h' : v < 0 ∨ 255 < v := by omega
    exact .inr ⟨h', checkedWrite_out_of_range r h' after s⟩

/-! `storeBytes` writes memory only. -/

@[simp] theorem storeBytes_A (a : Addr) (vs : List Byte) (s : State) : (storeBytes a vs s).A = s.A := by
  induction vs generalizing a s with
  | nil => rfl
  | cons v vs ih => simp [storeBytes, ih]

@[simp] theorem storeBytes_B (a : Addr) (vs : List Byte) (s : State) : (storeBytes a vs s).B = s.B := by
  induction vs generalizing a s with
  | nil => rfl
  | cons v vs ih => simp [storeBytes, ih]

@[simp] theorem storeBytes_OUT (a : Addr) (vs : List Byte) (s : State) : (storeBytes a vs s).OUT = s.OUT := by
  induction vs generalizing a s with
  | nil => rfl
  | cons v vs ih => simp [storeBytes, ih]

@[simp] theorem storeBytes_FLAGS (a : Addr) (vs : List Byte) (s : State) : (storeBytes a vs s).FLAGS = s.FLAGS := by
  induction vs generalizing a s with
  | nil => rfl
  | cons v vs ih => simp [storeBytes, ih]

@[simp] theorem storeBytes_pc (a : Addr) (vs : List Byte) (s : State) : (storeBytes a vs s).pc = s.pc := by
  induction vs generalizing a s with
  | nil => rfl
  | cons v vs ih => simp [storeBytes, ih]

@[simp] theorem storeBytes_status (a : Addr) (vs : List Byte) (s : State) :
    (storeBytes a vs s).status = s.status := by
  induction vs generalizing a s with
  | nil => rfl
  | cons v vs ih => simp [storeBytes, ih]

end Sys2Proof.Machine
end

