-- ==== Sys2Proof/Laws/PerInstr.lean ====
section
/-! SUPPORT. Laws/PerInstr.lean: a statement about the syntax of every instruction, one lemma per constructor. -/

namespace Sys2Proof.Laws.EncodingShape

/-- An instruction is well formed, its first byte is its own opcode byte under every OPC, and it is at most MAXLEN
bytes long (spec/30_encoding.md R60, R65; spec/00_scope.md R6). -/
def Statement (i : Instr) : Prop :=
  i.wellFormed = true ∧
  ∀ c : Config, (encode c i).head? = some (c.opc i.mnemonic) ∧ (encode c i).length ≤ Config.maxLen

theorem hlt : Statement .hlt := ⟨Instr.wellFormed_all _, fun _ => ⟨rfl, Nat.le_succ 1⟩⟩
theorem outl (lit : Byte) : Statement (.outl lit) := ⟨Instr.wellFormed_all _, fun _ => ⟨rfl, Nat.le_refl 2⟩⟩
theorem outr (addr : Addr) : Statement (.outr addr) := ⟨Instr.wellFormed_all _, fun _ => ⟨rfl, Nat.le_refl 2⟩⟩
theorem outa : Statement .outa := ⟨Instr.wellFormed_all _, fun _ => ⟨rfl, Nat.le_succ 1⟩⟩
theorem outb : Statement .outb := ⟨Instr.wellFormed_all _, fun _ => ⟨rfl, Nat.le_succ 1⟩⟩
theorem movla (lit : Byte) : Statement (.movla lit) := ⟨Instr.wellFormed_all _, fun _ => ⟨rfl, Nat.le_refl 2⟩⟩
theorem movlb (lit : Byte) : Statement (.movlb lit) := ⟨Instr.wellFormed_all _, fun _ => ⟨rfl, Nat.le_refl 2⟩⟩
theorem movra (addr : Addr) : Statement (.movra addr) := ⟨Instr.wellFormed_all _, fun _ => ⟨rfl, Nat.le_refl 2⟩⟩
theorem movrb (addr : Addr) : Statement (.movrb addr) := ⟨Instr.wellFormed_all _, fun _ => ⟨rfl, Nat.le_refl 2⟩⟩
theorem movar (addr : Addr) : Statement (.movar addr) := ⟨Instr.wellFormed_all _, fun _ => ⟨rfl, Nat.le_refl 2⟩⟩
theorem movbr (addr : Addr) : Statement (.movbr addr) := ⟨Instr.wellFormed_all _, fun _ => ⟨rfl, Nat.le_refl 2⟩⟩
theorem adda : Statement .adda := ⟨Instr.wellFormed_all _, fun _ => ⟨rfl, Nat.le_succ 1⟩⟩
theorem addb : Statement .addb := ⟨Instr.wellFormed_all _, fun _ => ⟨rfl, Nat.le_succ 1⟩⟩
theorem subba : Statement .subba := ⟨Instr.wellFormed_all _, fun _ => ⟨rfl, Nat.le_succ 1⟩⟩
theorem subab : Statement .subab := ⟨Instr.wellFormed_all _, fun _ => ⟨rfl, Nat.le_succ 1⟩⟩
theorem anda : Statement .anda := ⟨Instr.wellFormed_all _, fun _ => ⟨rfl, Nat.le_succ 1⟩⟩
theorem andb : Statement .andb := ⟨Instr.wellFormed_all _, fun _ => ⟨rfl, Nat.le_succ 1⟩⟩
theorem ora : Statement .ora := ⟨Instr.wellFormed_all _, fun _ => ⟨rfl, Nat.le_succ 1⟩⟩
theorem orb : Statement .orb := ⟨Instr.wellFormed_all _, fun _ => ⟨rfl, Nat.le_succ 1⟩⟩

end Sys2Proof.Laws.EncodingShape
end

