-- ==== Sys2Proof/Laws/Step.lean ====
section
/-! SUPPORT. Laws/Step.lean: what a step can do, said once: a step is enabled in Running alone, and is then either a
decode miss or the execute stage of the mnemonic the opcode byte decodes to. -/

namespace Sys2Proof.Machine

theorem execWith_ora (c : Config) (s : State) : execWith c .ora s = execOraInto c.oraDest s := by
  simp [execWith]

theorem execWith_other (c : Config) {i : Instr} (h : i ≠ .ora) (s : State) : execWith c i s = exec i s := by
  simp [execWith, h]

/-- At the default parameters the execute stage is `exec`. -/
theorem execWith_default (i : Instr) (s : State) : execWith defaultConfig i s = exec i s := by
  by_cases h : i = .ora
  · subst h; rfl
  · exact execWith_other defaultConfig h s

theorem stepWith_running {c : Config} {s : State} (h : s.status = .running) : stepWith c s = fetchAndExecute c s := by
  simp [stepWith, h]

/-- A state with a next state is Running. -/
theorem stepWith_next_running {c : Config} {s t : State} (h : stepWith c s = .next t) : s.status = .running := by
  cases hs : s.status with
  | running => rfl
  | halted => simp [stepWith, hs] at h
  | faulted reason => simp [stepWith, hs] at h

theorem fetchAndExecute_miss {c : Config} {s : State} (h : decodeOpcode c (memRead s.pc s) = none) :
    fetchAndExecute c s = .next (raise (.illegalInstruction (memRead s.pc s)) (incPc s)) := by
  simp [fetchAndExecute, h]

theorem fetchAndExecute_hit {c : Config} {s : State} {m : Mnemonic} (h : decodeOpcode c (memRead s.pc s) = some m) :
    fetchAndExecute c s = operandAndExecute c m (incPc s) := by
  simp [fetchAndExecute, h]

/-- Everything a step can do when it has a next state. -/
theorem stepWith_next_cases {c : Config} {s t : State} (h : stepWith c s = .next t) :
    s.status = .running ∧
    ((decodeOpcode c (memRead s.pc s) = none ∧ t = raise (.illegalInstruction (memRead s.pc s)) (incPc s)) ∨
     (∃ i, decodeOpcode c (memRead s.pc s) = some i.mnemonic ∧ execWith c i (incPc s) = .next t ∧
       (i.mnemonic.shape = .noOperand i ∨
         ∃ build, i.mnemonic.shape = .operand build ∧ build (memRead (s.pc + 1#8) s) = i))) := by
  have hrun := stepWith_next_running h
  rw [stepWith_running hrun] at h
  refine ⟨hrun, ?_⟩
  cases hd : decodeOpcode c (memRead s.pc s) with
  | none =>
    rw [fetchAndExecute_miss hd] at h
    cases h
    exact .inl ⟨rfl, rfl⟩
  | some m =>
    rw [fetchAndExecute_hit hd] at h
    refine .inr ?_
    obtain ⟨i, hsh, hm⟩ | ⟨build, hsh, hm⟩ := m.shape_cases
    · subst hm
      rw [operandAndExecute, hsh] at h
      exact ⟨i, rfl, h, .inl hsh⟩
    · rw [operandAndExecute, hsh] at h
      refine ⟨build (memRead (s.pc + 1#8) s), by rw [hm], h, .inr ⟨build, by rw [hm]; exact hsh, rfl⟩⟩

/-- Where the host's word is placed, the fetch finds its two bytes. -/
theorem placeWord_fetch (nbits w : Nat) (s : State) :
    (placeWord nbits w s).status = .running ∧ (placeWord nbits w s).pc = s.pc ∧
    [memRead s.pc (placeWord nbits w s), memRead (s.pc + 1#8) (placeWord nbits w s)] = tableBytes nbits w := by
  refine ⟨rfl, rfl, ?_⟩
  have hne : s.pc ≠ s.pc + 1#8 := by
    intro h
    have := congrArg BitVec.toNat h
    simp only [BitVec.toNat_add] at this
    have hlt := s.pc.isLt
    simp at this
    omega
  have h1 : ∀ a, memRead a (placeWord nbits w s) = memRead a (storeBytes s.pc (tableBytes nbits w) s) := fun _ => rfl
  simp only [h1, tableBytes, storeBytes, memRead_memWrite_same, memRead_memWrite_other _ _ hne]

end Sys2Proof.Machine
end

