-- ==== Sys2Proof/Tests/Slice0.lean ====
section
/-! SUPPORT. Tests/Slice0.lean: the model's own tests. Expected results come from spec/95_test_vectors.md (the vector's
name stands in the test's comment) or from the encodings of spec/30_encoding.md, R61 to R66, written out bit by bit.
Vectors marked D1 there rest on the default OPC (log 1). The witnesses at the end meet the hypotheses of the
obligations. -/

namespace Sys2Proof.Tests

open Sys2Proof Sys2Proof.Machine

/-- A Running state with FLAGS = 0. -/
def st (pc : Addr) (A B OUT : Byte) (mem : Memory) : State :=
  { A := A, B := B, OUT := OUT, FLAGS := 0#2, pc := pc, status := .running, mem := mem }

/-- Another admissible configuration: ORA_DEST = A, and OUTL and OUTR with each other's default byte. -/
def otherConfig : Config where
  opc
    | .outl => 0x02#8
    | .outr => 0x01#8
    | m => defaultOpc m
  oraDest := .A

/-! ## Well-formedness: an ill-formed term for each check -/

/-- OPC not injective: OUTB given OUTL's byte. -/
theorem test_opcInjective_refuses :
    Config.opcInjective { opc := fun m => if m = .outb then 0x01#8 else defaultOpc m, oraDest := .B } = false := by
  decide

/-- A byte above 0x34. -/
theorem test_opcInRange_refuses :
    Config.opcInRange { opc := fun m => if m = .orb then 0x35#8 else defaultOpc m, oraDest := .B } = false := by
  decide

/-- MOVLA not at the source's byte 0x11. -/
theorem test_opcAnchored_refuses :
    Config.opcAnchored { opc := fun m => if m = .movla then 0x10#8 else defaultOpc m, oraDest := .B } = false := by
  decide

theorem test_otherConfig_admissible : otherConfig.admissible = true := by decide

/-- V-LD-4: 257 elements. -/
theorem test_image_too_long_refused : imageWellFormed (List.replicate 257 0) = false := by
  rw [imageWellFormed, List.length_replicate]
  rfl

/-- V-LD-5: an element 0x1FF; and one below 0. -/
theorem test_image_element_refused : imageWellFormed [0x11, 0x1FF] = false ∧ imageWellFormed [-1] = false := by decide

/-- V-LD-2, V-LD-3: the empty image and one of 256 bytes. -/
theorem test_image_accepted : imageWellFormed [] = true ∧ imageWellFormed (List.replicate 256 255) = true := by
  refine ⟨rfl, ?_⟩
  rw [imageWellFormed, List.length_replicate, List.all_replicate]
  rfl

/-- R71: the operand bytes at both ends of the range are well formed (no `Instr` is ill formed). -/
theorem test_instr_operands_wellFormed :
    (Instr.movla 0x00#8).wellFormed = true ∧ (Instr.movla 0xFF#8).wellFormed = true ∧
    (Instr.movar 0x00#8).wellFormed = true ∧ (Instr.movar 0xFF#8).wellFormed = true := by
  decide

/-- A list that is not in canonical form: out of order, an address twice, an address beyond 255, an entry that holds 0. -/
theorem test_memory_wf_refuses :
    Memory.wf [(2, 1#8), (1, 1#8)] = false ∧ Memory.wf [(1, 1#8), (1, 2#8)] = false ∧
    Memory.wf [(256, 1#8)] = false ∧ Memory.wf [(3, 0#8)] = false := by
  decide

/-! ## Decoding: a word of each row written out from the spec's encoding (first byte in bits 7 to 0) -/

theorem test_decode_hlt : decodeTableWord 8 0b00000000 = some .hlt := by decide

theorem test_decode_outl : decodeTableWord 16 0b1010011000000001 = some (.outl 0xA6#8) := by decide

theorem test_decode_outr : decodeTableWord 16 0b1010011000000010 = some (.outr 0xA6#8) := by decide

theorem test_decode_outa : decodeTableWord 8 0b00000011 = some .outa := by decide

theorem test_decode_outb : decodeTableWord 8 0b00000100 = some .outb := by decide

theorem test_decode_movla : decodeTableWord 16 0b1010011000010001 = some (.movla 0xA6#8) := by decide

theorem test_decode_movlb : decodeTableWord 16 0b1010011000010010 = some (.movlb 0xA6#8) := by decide

theorem test_decode_movra : decodeTableWord 16 0b1010011000010011 = some (.movra 0xA6#8) := by decide

theorem test_decode_movrb : decodeTableWord 16 0b1010011000010100 = some (.movrb 0xA6#8) := by decide

theorem test_decode_movar : decodeTableWord 16 0b1010011000010101 = some (.movar 0xA6#8) := by decide

theorem test_decode_movbr : decodeTableWord 16 0b1010011000010110 = some (.movbr 0xA6#8) := by decide

theorem test_decode_adda : decodeTableWord 8 0b00100001 = some .adda := by decide

theorem test_decode_addb : decodeTableWord 8 0b00100010 = some .addb := by decide

theorem test_decode_subba : decodeTableWord 8 0b00100011 = some .subba := by decide

theorem test_decode_subab : decodeTableWord 8 0b00100100 = some .subab := by decide

theorem test_decode_anda : decodeTableWord 8 0b00110001 = some .anda := by decide

theorem test_decode_andb : decodeTableWord 8 0b00110010 = some .andb := by decide

theorem test_decode_ora : decodeTableWord 8 0b00110011 = some .ora := by decide

theorem test_decode_orb : decodeTableWord 8 0b00110100 = some .orb := by decide

/-- V-ILL-1, 3, 5 to 9, 2: the bytes at the edges of the families, rejected by name. -/
theorem test_decode_illegal :
    [0x05#8, 0x35#8, 0x10#8, 0x17#8, 0x20#8, 0x25#8, 0x30#8, 0xFF#8].all
      (fun b => match decode defaultConfig [b, 0x11#8] with
        | .error e => e == DecodeError.illegal b
        | .ok _ => false) = true := by
  decide

/-- A two-byte opcode at the end of a byte list, and no bytes at all. -/
theorem test_decode_short :
    (match decode defaultConfig [0x11#8] with | .error e => e == DecodeError.missingOperand .movla | .ok _ => false) = true ∧
    (match decode defaultConfig [] with | .error e => e == DecodeError.noBytes | .ok _ => false) = true := by
  decide

/-- The bytes of the source's program (S1), encoded. -/
theorem test_encode_source_program :
    [Instr.movla 0x05#8, .movlb 0x03#8, .adda, .outa, .hlt].flatMap (encode defaultConfig) =
      [0x11#8, 0x05#8, 0x12#8, 0x03#8, 0x21#8, 0x03#8, 0x00#8] := by
  decide

/-! ## One step -/

/-- V-PC-1. -/
theorem test_pc_one_byte_wraps : nextState? (step (st 0xFF#8 0x12#8 0#8 0#8 [(0xFF, 0x03#8)])) = some (st 0x00#8 0x12#8 0#8 0x12#8 [(0xFF, 0x03#8)]) := by decide

/-- V-PC-2. -/
theorem test_pc_operand_from_address_zero : nextState? (step (st 0xFF#8 0#8 0#8 0#8 [(0, 0x9C#8), (0xFF, 0x11#8)])) = some (st 0x01#8 0x9C#8 0#8 0#8 [(0, 0x9C#8), (0xFF, 0x11#8)]) := by decide

/-- V-PC-3. -/
theorem test_pc_second_increment_wraps : nextState? (step (st 0xFE#8 0#8 0#8 0#8 [(0xFE, 0x12#8), (0xFF, 0x7F#8)])) = some (st 0x00#8 0#8 0x7F#8 0#8 [(0xFE, 0x12#8), (0xFF, 0x7F#8)]) := by decide

/-- V-CYC-1, V-CYC-2: no step in a terminal state. -/
theorem test_terminal_states :
    step { st 0x07#8 0#8 0#8 0#8 [] with status := .halted } = .fault .halted ∧
    step { st 0x03#8 0#8 0#8 0#8 [] with status := .faulted (.illegalInstruction 0x05#8) } =
      .fault (.faulted (.illegalInstruction 0x05#8)) :=
  ⟨rfl, rfl⟩

/-- V-ILL-1 (D1; pc by D3). -/
theorem test_illegal : nextState? (step (st 0x02#8 0xFF#8 0#8 0#8 [(2, 0x05#8)])) =
    some { st 0x03#8 0xFF#8 0#8 0#8 [(2, 0x05#8)] with status := .faulted (.illegalInstruction 0x05#8) } := by
  decide

/-- V-ILL-4: the pc wraps. -/
theorem test_illegal_wraps : nextState? (step (st 0xFF#8 0#8 0#8 0#8 [(0xFF, 0x80#8)])) =
    some { st 0x00#8 0#8 0#8 0#8 [(0xFF, 0x80#8)] with status := .faulted (.illegalInstruction 0x80#8) } := by
  decide

/-- V-HLT-1: the byte 0x00 at 6 is an unlisted cell. -/
theorem test_hlt : nextState? (step (st 0x06#8 0x08#8 0x03#8 0x08#8 [])) =
    some { st 0x07#8 0x08#8 0x03#8 0x08#8 [] with status := .halted } := by
  decide

/-- V-PC-4: HLT at 255. -/
theorem test_hlt_wraps : nextState? (step (st 0xFF#8 0#8 0#8 0#8 [])) =
    some { st 0x00#8 0#8 0#8 0#8 [] with status := .halted } := by
  decide

/-- V-OUT-1 (D1). -/
theorem test_outl : nextState? (step (st 0x10#8 0#8 0#8 0#8 [(0x10, 0x01#8), (0x11, 0x7E#8)])) = some (st 0x12#8 0#8 0#8 0x7E#8 [(0x10, 0x01#8), (0x11, 0x7E#8)]) := by decide

/-- V-OUT-2 (D1). -/
theorem test_outl_zero : nextState? (step (st 0x10#8 0#8 0#8 0x55#8 [(0x10, 0x01#8)])) = some (st 0x12#8 0#8 0#8 0#8 [(0x10, 0x01#8)]) := by decide

/-- V-OUT-3 (D1). -/
theorem test_outr_unwritten : nextState? (step (st 0x00#8 0#8 0#8 0x55#8 [(0, 0x02#8), (1, 0xC0#8)])) = some (st 0x02#8 0#8 0#8 0#8 [(0, 0x02#8), (1, 0xC0#8)]) := by decide

/-- V-OUT-6 (D1). -/
theorem test_outr_own_operand : nextState? (step (st 0x20#8 0#8 0#8 0#8 [(0x20, 0x02#8), (0x21, 0x21#8)])) = some (st 0x22#8 0#8 0#8 0x21#8 [(0x20, 0x02#8), (0x21, 0x21#8)]) := by decide

/-- V-OUT-7. -/
theorem test_outa : nextState? (step (st 0x05#8 0x08#8 0#8 0#8 [(5, 0x03#8)])) = some (st 0x06#8 0x08#8 0#8 0x08#8 [(5, 0x03#8)]) := by decide

/-- V-OUT-8 (D1). -/
theorem test_outb : nextState? (step (st 0x20#8 0#8 0xFF#8 0x01#8 [(0x20, 0x04#8)])) = some (st 0x21#8 0#8 0xFF#8 0xFF#8 [(0x20, 0x04#8)]) := by decide

/-- V-MOV-3. -/
theorem test_movla : nextState? (step (st 0x00#8 0x77#8 0#8 0#8 [(0, 0x11#8), (1, 0xFF#8)])) = some (st 0x02#8 0xFF#8 0#8 0#8 [(0, 0x11#8), (1, 0xFF#8)]) := by decide

/-- V-MOV-2. -/
theorem test_movlb : nextState? (step (st 0x02#8 0#8 0#8 0#8 [(2, 0x12#8), (3, 0x03#8)])) = some (st 0x04#8 0#8 0x03#8 0#8 [(2, 0x12#8), (3, 0x03#8)]) := by decide

/-- V-MOV-4 (D1). -/
theorem test_movra : nextState? (step (st 0x04#8 0#8 0#8 0#8 [(4, 0x13#8), (5, 0x80#8), (0x80, 0x2A#8)])) = some (st 0x06#8 0x2A#8 0#8 0#8 [(4, 0x13#8), (5, 0x80#8), (0x80, 0x2A#8)]) := by decide

/-- V-MOV-7 (D1). -/
theorem test_movra_own_opcode : nextState? (step (st 0x04#8 0#8 0#8 0#8 [(4, 0x13#8), (5, 0x04#8)])) = some (st 0x06#8 0x13#8 0#8 0#8 [(4, 0x13#8), (5, 0x04#8)]) := by decide

/-- V-MOV-5 (D1). -/
theorem test_movrb : nextState? (step (st 0x04#8 0#8 0#8 0#8 [(4, 0x14#8), (5, 0x80#8), (0x80, 0x2A#8)])) = some (st 0x06#8 0#8 0x2A#8 0#8 [(4, 0x14#8), (5, 0x80#8), (0x80, 0x2A#8)]) := by decide

/-- V-MOV-12 (D1). -/
theorem test_movar_own_operand : nextState? (step (st 0x02#8 0xEE#8 0#8 0#8 [(2, 0x15#8), (3, 0x03#8)])) = some (st 0x04#8 0xEE#8 0#8 0#8 [(2, 0x15#8), (3, 0xEE#8)]) := by decide

/-- V-MOV-13 (D1). -/
theorem test_movar_operand_from_zero : nextState? (step (st 0xFF#8 0x5A#8 0#8 0#8 [(0, 0x40#8), (0xFF, 0x15#8)])) = some (st 0x01#8 0x5A#8 0#8 0#8 [(0, 0x40#8), (0x40, 0x5A#8), (0xFF, 0x15#8)]) := by decide

/-- V-MOV-9 (D1). -/
theorem test_movbr : nextState? (step (st 0x09#8 0#8 0x54#8 0#8 [(9, 0x16#8), (0x0A, 0x81#8)])) = some (st 0x0B#8 0#8 0x54#8 0#8 [(9, 0x16#8), (0x0A, 0x81#8), (0x81, 0x54#8)]) := by decide

/-- Storing 0 takes the entry out of the list (V-MOV-10, with B for A, R115). -/
theorem test_movbr_zero : nextState? (step (st 0x02#8 0#8 0#8 0#8 [(2, 0x16#8), (3, 0x04#8), (4, 0x21#8)])) =
    some (st 0x04#8 0#8 0#8 0#8 [(2, 0x16#8), (3, 0x04#8)]) := by
  decide

/-- V-ADD-4. -/
theorem test_adda : nextState? (step (st 0x04#8 127#8 128#8 0#8 [(4, 0x21#8)])) =
    some (st 0x05#8 255#8 128#8 0#8 [(4, 0x21#8)]) := by
  decide

/-- V-ADD-6 (S2). -/
theorem test_adda_overflow : nextState? (step (st 0x04#8 250#8 10#8 0#8 [(4, 0x21#8)])) =
    some { st 0x05#8 250#8 10#8 0#8 [(4, 0x21#8)] with status := .faulted (.outOfRange (260)) } := by
  decide

/-- V-ADD-10 (D1). -/
theorem test_addb : nextState? (step (st 0x04#8 200#8 55#8 0#8 [(4, 0x22#8)])) =
    some (st 0x05#8 200#8 255#8 0#8 [(4, 0x22#8)]) := by
  decide

/-- V-ADD-11 (D1). -/
theorem test_addb_overflow : nextState? (step (st 0x04#8 200#8 56#8 0#8 [(4, 0x22#8)])) =
    some { st 0x05#8 200#8 56#8 0#8 [(4, 0x22#8)] with status := .faulted (.outOfRange (256)) } := by
  decide

/-- V-SUB-1 (D1). -/
theorem test_subba : nextState? (step (st 0x04#8 5#8 3#8 0#8 [(4, 0x23#8)])) =
    some (st 0x05#8 2#8 3#8 0#8 [(4, 0x23#8)]) := by
  decide

/-- V-SUB-7 (D1). -/
theorem test_subba_underflow : nextState? (step (st 0x04#8 0#8 255#8 0#8 [(4, 0x23#8)])) =
    some { st 0x05#8 0#8 255#8 0#8 [(4, 0x23#8)] with status := .faulted (.outOfRange (-255)) } := by
  decide

/-- V-SUB-8 (D1). -/
theorem test_subab : nextState? (step (st 0x04#8 3#8 5#8 0#8 [(4, 0x24#8)])) =
    some (st 0x05#8 3#8 2#8 0#8 [(4, 0x24#8)]) := by
  decide

/-- V-SUB-9 (D1). -/
theorem test_subab_underflow : nextState? (step (st 0x04#8 5#8 3#8 0#8 [(4, 0x24#8)])) =
    some { st 0x05#8 5#8 3#8 0#8 [(4, 0x24#8)] with status := .faulted (.outOfRange (-2)) } := by
  decide

/-- V-LOG-1 (D1). -/
theorem test_anda : nextState? (step (st 0x04#8 0xCC#8 0xAA#8 0#8 [(4, 0x31#8)])) =
    some (st 0x05#8 0x88#8 0xAA#8 0#8 [(4, 0x31#8)]) := by
  decide

/-- V-LOG-4 (D1). -/
theorem test_andb : nextState? (step (st 0x04#8 0x0C#8 0x0A#8 0#8 [(4, 0x32#8)])) =
    some (st 0x05#8 0x0C#8 0x08#8 0#8 [(4, 0x32#8)]) := by
  decide

/-- V-LOG-6 (D1). -/
theorem test_orb : nextState? (step (st 0x04#8 0x88#8 0x21#8 0#8 [(4, 0x34#8)])) =
    some (st 0x05#8 0x88#8 0xA9#8 0#8 [(4, 0x34#8)]) := by
  decide

/-- V-LOG-9 (D1), ORA_DEST = B. -/
theorem test_ora_into_B : nextState? (step (st 0x04#8 0x05#8 0x0A#8 0#8 [(4, 0x33#8)])) =
    some (st 0x05#8 0x05#8 0x0F#8 0#8 [(4, 0x33#8)]) := by
  decide

/-- V-LOG-9 (D1), ORA_DEST = A. -/
theorem test_ora_into_A : nextState? (stepWith otherConfig (st 0x04#8 0x05#8 0x0A#8 0#8 [(4, 0x33#8)])) =
    some (st 0x05#8 0x0F#8 0x0A#8 0#8 [(4, 0x33#8)]) := by
  decide

/-! ## Host commands -/

/-- V-LD-6, V-LD-7, R170: a load in a faulted state replaces everything. -/
theorem test_load : nextState? (perform defaultConfig (.load [0xAA])
      (some { st 0x05#8 0xFA#8 0x0A#8 0x01#8 [(0x80, 0x2A#8)] with status := .faulted (.outOfRange 260) })) =
    some (st 0x00#8 0#8 0#8 0#8 [(0, 0xAA#8)]) := by
  decide

/-- V-LD-4, V-LD-5 and R173: refused. -/
theorem test_refused_commands :
    loadImage (List.replicate 257 0) = .refused (.imageTooLong 257) ∧
    loadImage [0x11, 0x1FF] = .refused (.imageElementOutOfRange 0x1FF) ∧
    perform defaultConfig .step none = .refused .notLoaded :=
  by
  refine ⟨?_, rfl, rfl⟩
  rw [loadImage, List.length_replicate]
  rfl

/-- P11: the empty image halts after one step, at pc = 1; fuel 0 leaves it Running. -/
theorem test_run_empty_image :
    runFor defaultConfig 2 State.reset = .ended { st 0x01#8 0#8 0#8 0#8 [] with status := .halted } ∧
    runFor defaultConfig 0 State.reset = .outOfFuel State.reset := by
  decide

/-- Storing the host's word: the low byte at pc, the high byte after it, wrapping, and the CPU Running. -/
theorem test_withFetchWord :
    { st 0xFF#8 0#8 0#8 0#8 [(0, 0x01#8), (7, 0x07#8)] with status := .halted }.withFetchWord 16 0x9C11 =
      st 0xFF#8 0#8 0#8 0#8 [(0, 0x9C#8), (7, 0x07#8), (0xFF, 0x11#8)] := by
  decide

/-- The bits above nbits are 0. -/
theorem test_withFetchWord_short :
    State.reset.withFetchWord 8 0x9C11 = st 0x00#8 0#8 0#8 0#8 [(0, 0x11#8)] := by
  decide

/-! ## Witnesses: concrete values that meet the hypotheses of the obligations -/

theorem witness_EncodeThenDecodeGivesInstruction :
    defaultConfig.admissible = true ∧ otherConfig.admissible = true ∧ (Instr.movbr 0xFF#8).wellFormed = true := by
  decide

theorem witness_DecodedBytesAreTheEncoding :
    decode defaultConfig [0x15#8, 0xFF#8, 0x07#8] = .ok (.movar 0xFF#8, [0x07#8]) := rfl

theorem witness_OpcodeByteDecodesToItsMnemonicOrIsIllegal :
    otherConfig.opcInjective = true ∧ ∀ m, otherConfig.opc m ≠ 0x35#8 := by
  refine ⟨by decide, fun m => ?_⟩
  cases m <;> decide

theorem witness_SourceProgramBytesDecode : otherConfig.admissible = true := by decide

/-- The bytes on both sides of each border of the ranges. -/
theorem witness_DefaultMapFaultsExactlyOnTheIllegalBytes :
    (st 0#8 0#8 0#8 0#8 [(0, 0x05#8)]).status = .running ∧
    [0x05#8, 0x10#8, 0x17#8, 0x20#8, 0x25#8, 0x30#8, 0x35#8, 0xFF#8].all
      (fun b => (nextState? (step (st 0#8 0#8 0#8 0#8 [(0, b)]))).map (·.status) ==
        some (.faulted (.illegalInstruction b))) = true ∧
    [0x04#8, 0x11#8, 0x16#8, 0x21#8, 0x24#8, 0x31#8, 0x34#8].all
      (fun b => (nextState? (step (st 0#8 0#8 0#8 0#8 [(0, b)]))).map (·.status) == some .running) = true := by
  decide

/-- A one-byte and, across the top of memory, a two-byte instruction. -/
theorem witness_StepRunsTheDecodedInstruction :
    (st 0x04#8 5#8 3#8 0#8 [(4, 0x21#8)]).status = .running ∧
    decode defaultConfig (fetchWindow (st 0x04#8 5#8 3#8 0#8 [(4, 0x21#8)])) = .ok (.adda, [0x00#8]) ∧
    decode defaultConfig (fetchWindow (st 0xFF#8 0#8 0#8 0#8 [(0, 0x40#8), (0xFF, 0x15#8)])) =
      .ok (.movar 0x40#8, []) :=
  ⟨rfl, rfl, rfl⟩

theorem witness_StepRunsTheEncodedInstruction :
    otherConfig.admissible = true ∧
    fetchWindow (st 0x10#8 0#8 0#8 0#8 [(0x10, 0x02#8), (0x11, 0x7E#8)]) = encode otherConfig (.outl 0x7E#8) ++ [] := by
  decide

theorem witness_PlacedTableWordRunsNext : decodeTableWord 16 0x8015 = some (.movar 0x80#8) := by decide

theorem witness_UndecodableByteFaults :
    (st 0x02#8 0xFF#8 0#8 0#8 [(2, 0x05#8)]).status = .running ∧
    ∀ m, defaultConfig.opc m ≠ memRead 0x02#8 (st 0x02#8 0xFF#8 0#8 0#8 [(2, 0x05#8)]) := by
  refine ⟨rfl, fun m => ?_⟩
  cases m <;> decide

/-- The lowest and the highest byte above the range. -/
theorem witness_ByteAboveTheCodeRangeFaults :
    otherConfig.admissible = true ∧
    0x34 < (memRead 0x10#8 (st 0x10#8 0#8 0#8 0#8 [(0x10, 0x35#8)])).toNat ∧
    0x34 < (memRead 0xFF#8 (st 0xFF#8 0#8 0#8 0#8 [(0xFF, 0xFF#8)])).toNat := by
  decide

theorem witness_TerminalStatesHaveNoStep :
    { State.reset with status := .halted }.status = .halted ∧
    { State.reset with status := .faulted (.outOfRange (-1)) }.status = .faulted (.outOfRange (-1)) :=
  ⟨rfl, rfl⟩

/-- Each of the four outcomes has a state. -/
theorem witness_RunningStepHasOneOfFourOutcomes :
    (nextState? (step (st 0#8 0#8 0#8 0#8 [(0, 0x03#8)]))).map (·.status) = some .running ∧
    (nextState? (step (st 0#8 0#8 0#8 0#8 []))).map (·.status) = some .halted ∧
    (nextState? (step (st 0#8 0#8 0#8 0#8 [(0, 0x35#8)]))).map (·.status) =
      some (.faulted (.illegalInstruction 0x35#8)) ∧
    (nextState? (step (st 0#8 0xFF#8 0x01#8 0#8 [(0, 0x21#8)]))).map (·.status) = some (.faulted (.outOfRange 256)) := by
  decide

theorem witness_PcMovesByTheInstructionLength :
    step (st 0#8 0#8 0#8 0#8 [(0, 0x11#8)]) = .next (st 2#8 0#8 0#8 0#8 [(0, 0x11#8)]) ∧
    decode defaultConfig (fetchWindow (st 0#8 0#8 0#8 0#8 [(0, 0x11#8)])) = .ok (.movla 0x00#8, []) ∧
    decodeOpcode defaultConfig (memRead 0#8 (st 0#8 0#8 0#8 0#8 [(0, 0x35#8)])) = none :=
  ⟨rfl, rfl, rfl⟩

/-- Both lengths at the top of memory. -/
theorem witness_PcWrapsFromTheTop :
    defaultConfig.admissible = true ∧
    step (st 0xFF#8 0#8 0#8 0#8 [(0xFF, 0x03#8)]) = .next (st 0x00#8 0#8 0#8 0#8 [(0xFF, 0x03#8)]) ∧
    encode defaultConfig .outa = [memRead 0xFF#8 (st 0xFF#8 0#8 0#8 0#8 [(0xFF, 0x03#8)])] ∧
    step (st 0xFF#8 0#8 0#8 0#8 [(0xFF, 0x11#8)]) = .next (st 0x01#8 0#8 0#8 0#8 [(0xFF, 0x11#8)]) ∧
    encode defaultConfig (.movla 0x00#8) =
      [memRead 0xFF#8 (st 0xFF#8 0#8 0#8 0#8 [(0xFF, 0x11#8)]), memRead 0x00#8 (st 0xFF#8 0#8 0#8 0#8 [(0xFF, 0x11#8)])] :=
  ⟨by decide, rfl, rfl, rfl, rfl⟩

theorem witness_HltHalts :
    otherConfig.admissible = true ∧ State.reset.status = .running ∧ memRead State.reset.pc State.reset = 0x00#8 := by
  decide

theorem witness_OutaCopiesA :
    otherConfig.admissible = true ∧ memRead 0xFF#8 (st 0xFF#8 0x12#8 0#8 0#8 [(0xFF, 0x03#8)]) = 0x03#8 := by
  decide

theorem witness_MovlaLoadsLiteral :
    otherConfig.admissible = true ∧ memRead 0xFF#8 (st 0xFF#8 0#8 0#8 0#8 [(0, 0x9C#8), (0xFF, 0x11#8)]) = 0x11#8 := by
  decide

theorem witness_MovlbLoadsLiteral :
    otherConfig.admissible = true ∧ memRead 0xFF#8 (st 0xFF#8 0#8 0#8 0#8 [(0, 0x9C#8), (0xFF, 0x12#8)]) = 0x12#8 := by
  decide

/-- For every mnemonic a Running state that fetches it, under both configurations: the hypothesis `Fetches c s m` of
OutbCopiesB, OutlAndOutrSetOut, MovraAndMovrbLoadACell, MovarAndMovbrStoreOneCell, AndaAndAndbWriteTheConjunction,
OrbWritesTheDisjunction and OraWritesTheRegisterOfOraDest (whose ORA_DEST is B in the first and A in the second). -/
theorem witness_Fetches (m : Mnemonic) :
    Fetches defaultConfig (st 0x04#8 5#8 3#8 0#8 [(4, defaultConfig.opc m), (5, 0x80#8)]) m ∧
    Fetches otherConfig (st 0x04#8 5#8 3#8 0#8 [(4, otherConfig.opc m), (5, 0x80#8)]) m ∧
    defaultConfig.admissible = true ∧ otherConfig.admissible = true ∧
    defaultConfig.oraDest = .B ∧ otherConfig.oraDest = .A :=
  ⟨⟨rfl, rfl⟩, ⟨rfl, rfl⟩, by decide, by decide, rfl, rfl⟩

/-- The largest sum that fits (V-ADD-4), at a state that fetches ADDA, and one that fetches ADDB. -/
theorem witness_AddInRangeWritesTheSum :
    (127#8).toNat + (128#8).toNat ≤ 255 ∧
    Fetches defaultConfig (st 0x04#8 127#8 128#8 0#8 [(4, 0x21#8)]) .adda ∧
    Fetches defaultConfig (st 0x04#8 127#8 128#8 0#8 [(4, 0x22#8)]) .addb :=
  ⟨by decide, ⟨rfl, rfl⟩, ⟨rfl, rfl⟩⟩

/-- Equal operands (V-SUB-2), at a state that fetches SUBBA. -/
theorem witness_SubbaInRangeWritesTheDifference :
    (3#8).toNat ≤ (3#8).toNat ∧ Fetches defaultConfig (st 0x04#8 3#8 3#8 0#8 [(4, 0x23#8)]) .subba :=
  ⟨by decide, ⟨rfl, rfl⟩⟩

/-- Subtracting 0 (V-SUB-11), at a state that fetches SUBAB. -/
theorem witness_SubabInRangeWritesTheDifference :
    (0#8).toNat ≤ (200#8).toNat ∧ Fetches defaultConfig (st 0x04#8 0#8 200#8 0#8 [(4, 0x24#8)]) .subab :=
  ⟨by decide, ⟨rfl, rfl⟩⟩

/-- The smallest overflow (V-ADD-5) and the smallest underflows (V-SUB-6, V-SUB-12). -/
theorem witness_ArithmeticOutOfRangeFaults :
    256 ≤ (255#8).toNat + (1#8).toNat ∧ (0#8).toNat < (1#8).toNat := by
  decide

/-- On both sides of the border, for each of the four: a state that fetches it and has a next state (V-ADD-4, V-ADD-5,
V-ADD-10, V-ADD-11, V-SUB-2, V-SUB-6, V-SUB-10, V-SUB-12). -/
theorem witness_ArithmeticFaultsExactlyOutOfRange :
    defaultConfig.admissible = true ∧
    [(Mnemonic.adda, 127#8, 128#8), (.adda, 255#8, 1#8), (.addb, 200#8, 55#8), (.addb, 200#8, 56#8),
     (.subba, 3#8, 3#8), (.subba, 0#8, 1#8), (.subab, 0#8, 0#8), (.subab, 1#8, 0#8)].Forall fun x =>
      Fetches defaultConfig (st 0x04#8 x.2.1 x.2.2 0#8 [(4, defaultConfig.opc x.1)]) x.1 ∧
      (nextState? (step (st 0x04#8 x.2.1 x.2.2 0#8 [(4, defaultConfig.opc x.1)]))).isSome = true := by
  refine ⟨by decide, ?_⟩
  simp only [List.Forall]
  exact ⟨⟨⟨rfl, rfl⟩, rfl⟩, ⟨⟨rfl, rfl⟩, rfl⟩, ⟨⟨rfl, rfl⟩, rfl⟩, ⟨⟨rfl, rfl⟩, rfl⟩,
    ⟨⟨rfl, rfl⟩, rfl⟩, ⟨⟨rfl, rfl⟩, rfl⟩, ⟨⟨rfl, rfl⟩, rfl⟩, ⟨⟨rfl, rfl⟩, rfl⟩⟩

/-- The lowest and the highest bit of a byte. -/
theorem witness_LogicIsBitwiseAndCannotFault : 0 < 8 ∧ 7 < 8 := by decide

/-- A step that changes A, one that changes B, one that changes OUT, one that changes status. -/
theorem witness_OnlyTheListedInstructionsWriteEachRegister :
    (nextState? (step (st 0#8 0#8 0#8 0#8 [(0, 0x11#8), (1, 0x05#8)]))).map (·.A) = some 5#8 ∧
    (nextState? (step (st 0#8 0#8 0#8 0#8 [(0, 0x12#8), (1, 0x05#8)]))).map (·.B) = some 5#8 ∧
    (nextState? (step (st 0#8 5#8 0#8 0#8 [(0, 0x03#8)]))).map (·.OUT) = some 5#8 ∧
    (nextState? (step (st 0#8 0#8 0#8 0#8 []))).map (·.status) = some .halted := by
  decide

theorem witness_OnlyTheAddressedCellOfAStoreChanges :
    execWith defaultConfig (.movar 0x80#8) (st 0x03#8 0x2A#8 0#8 0#8 []) =
      .next (st 0x04#8 0x2A#8 0#8 0#8 [(0x80, 0x2A#8)]) ∧
    memRead 0x80#8 (st 0x04#8 0x2A#8 0#8 0#8 [(0x80, 0x2A#8)]) ≠ memRead 0x80#8 (st 0x03#8 0x2A#8 0#8 0#8 []) :=
  ⟨rfl, by decide⟩

theorem witness_FlagsAreNeitherReadNorWritten :
    step (st 0#8 5#8 0#8 0#8 [(0, 0x03#8)]) = .next (st 1#8 5#8 0#8 5#8 [(0, 0x03#8)]) := rfl

/-- Two states that differ in OUT and FLAGS, and whose runs end, or run out of fuel. -/
theorem witness_OutAndFlagsNeverInfluenceARun :
    SameButOutAndFlags State.reset { State.reset with OUT := 0x55#8, FLAGS := 3#2 } ∧
    runFor defaultConfig 1 State.reset = .ended { st 1#8 0#8 0#8 0#8 [] with status := .halted } ∧
    runFor defaultConfig 0 State.reset = .outOfFuel State.reset :=
  ⟨⟨rfl, rfl, rfl, rfl, rfl⟩, by decide, by decide⟩

theorem witness_FaultsArePrecise :
    step (st 0x04#8 255#8 1#8 0#8 [(4, 0x21#8)]) =
      .next { st 0x05#8 255#8 1#8 0#8 [(4, 0x21#8)] with status := .faulted (.outOfRange 256) } := rfl

/-- MOVAR and MOVBR storing 0 just ahead of themselves (V-MOV-10), the second across the top of memory. -/
theorem witness_StoreAheadIsTheNextOpcode :
    defaultConfig.admissible = true ∧
    Fetches defaultConfig (st 0x02#8 0#8 0#8 0#8 [(2, 0x15#8), (3, 0x04#8), (4, 0x21#8)]) .movar ∧
    operandByte (st 0x02#8 0#8 0#8 0#8 [(2, 0x15#8), (3, 0x04#8), (4, 0x21#8)]) = 0x02#8 + 2#8 ∧
    Fetches defaultConfig (st 0xFE#8 0#8 0#8 0#8 [(0, 0x21#8), (0xFE, 0x16#8)]) .movbr ∧
    operandByte (st 0xFE#8 0#8 0#8 0#8 [(0, 0x21#8), (0xFE, 0x16#8)]) = 0xFE#8 + 2#8 :=
  ⟨by decide, ⟨rfl, rfl⟩, rfl, ⟨rfl, rfl⟩, rfl⟩

theorem witness_MemWriteSetsOneCell : (0xC1#8 : Addr) ≠ 0xC0#8 := by decide

theorem witness_EqualReadsMeanEqualMemories :
    Memory.wf [(0, 1#8), (0xFF, 2#8)] = true ∧ Memory.write (Memory.write [] 0xFF 2#8) 0 1#8 = [(0, 1#8), (0xFF, 2#8)] := by
  decide

/-- The borders of the checks: 0 and 255 are byte addresses and byte values, -1 and 256 are neither. -/
theorem witness_MemoryChecksFireOnlyOutsideBytes :
    (0x00#8 : Addr).toNat = 0 ∧ (0xFF#8 : Addr).toNat = 255 ∧ ((-1 : Int) < 0 ∨ 255 < (-1 : Int)) ∧
    ((256 : Int) < 0 ∨ 255 < (256 : Int)) ∧
    Memory.checkedRead [(0, 1#8), (255, 2#8)] 0 = .ok 1#8 ∧ Memory.checkedRead [(0, 1#8), (255, 2#8)] 255 = .ok 2#8 ∧
    (Memory.checkedRead [] (-1)).isOk = false ∧ (Memory.checkedRead [] 256).isOk = false ∧
    Memory.checkedWrite [] 0 255 = .ok [(0, 255#8)] ∧ Memory.checkedWrite [] 255 0 = .ok [] ∧
    (Memory.checkedWrite [] (-1) 0).isOk = false ∧ (Memory.checkedWrite [] 256 0).isOk = false ∧
    (Memory.checkedWrite [] 0 (-1)).isOk = false ∧ (Memory.checkedWrite [] 255 256).isOk = false :=
  ⟨rfl, rfl, by decide, by decide, rfl, rfl, rfl, rfl, rfl, rfl, rfl, rfl, rfl, rfl⟩

/-- The invariant at a Running and both Faulted states, with memory listed. -/
theorem witness_EveryStepKeepsTheInvariant :
    Inv defaultConfig (st 0x04#8 255#8 1#8 0#8 [(4, 0x21#8)]) ∧
    Inv defaultConfig { st 0x05#8 255#8 1#8 0#8 [(4, 0x21#8)] with status := .faulted (.outOfRange 256) } ∧
    Inv defaultConfig { st 0x03#8 0#8 0#8 0#8 [(2, 0x05#8)] with status := .faulted (.illegalInstruction 0x05#8) } ∧
    step (st 0x04#8 255#8 1#8 0#8 [(4, 0x21#8)]) =
      .next { st 0x05#8 255#8 1#8 0#8 [(4, 0x21#8)] with status := .faulted (.outOfRange 256) } :=
  ⟨⟨rfl, rfl, rfl⟩, ⟨rfl, rfl, by decide⟩, ⟨rfl, rfl, by decide⟩, rfl⟩

/-- A state after a load of P11's image and one step. -/
theorem witness_ReachableStatesHaveTheInvariant :
    Reachable defaultConfig { st 1#8 0#8 0#8 0#8 [] with status := .halted } :=
  .step (.load (img := []) rfl) rfl

theorem witness_LoadGivesEveryResetValue :
    imageWellFormed [0x11, 0x05, 0x12, 0x03, 0x21, 0x03, 0x00] = true ∧ imageWellFormed (List.replicate 256 255) = true :=
  ⟨by decide, test_image_accepted.2⟩

theorem witness_LoadRefusesEveryOtherImage :
    imageWellFormed (List.replicate 257 0) = false ∧ imageWellFormed [256] = false ∧ imageWellFormed [-1] = false :=
  ⟨test_image_too_long_refused, by decide, by decide⟩

theorem witness_RunRepeatsTheStepUntilNotRunning :
    step State.reset = .next { st 1#8 0#8 0#8 0#8 [] with status := .halted } ∧
    runFor defaultConfig 1 State.reset = .ended { st 1#8 0#8 0#8 0#8 [] with status := .halted } ∧
    runFor defaultConfig 0 State.reset = .outOfFuel State.reset :=
  ⟨rfl, by decide, by decide⟩

theorem witness_EveryRunEndsOrRepeats : Inv defaultConfig (st 0#8 0#8 0#8 0#8 [(0, 0x03#8)]) := ⟨rfl, rfl, rfl⟩

end Sys2Proof.Tests
end

section
/-! Lemmas about the decode and execute stages, used by the statements of spec/10_state.md: what an instruction does,
written as one of three effects followed by R94's second increment, and what can be read off it. -/

namespace Sys2Proof

/-! ## The decoder -/

/-- The instruction that an opcode and the byte after it make; a one-byte instruction ignores that byte (R61 to R65). -/
def Mnemonic.instr (m : Mnemonic) (opnd : Byte) : Instr :=
  match m.shape with
  | .noOperand i => i
  | .operand build => build opnd

@[simp] theorem Mnemonic.mnemonic_instr (m : Mnemonic) (opnd : Byte) : (m.instr opnd).mnemonic = m := by
  obtain ⟨i, hsh, hm⟩ | ⟨build, hsh, hm⟩ := m.shape_cases
  · simp only [Mnemonic.instr, hsh, hm]
  · simp only [Mnemonic.instr, hsh, hm]

/-- Decoding an encoded instruction gives it back, whatever follows it. -/
theorem decode_encode {c : Config} (h : c.opcInjective = true) (i : Instr) (rest : List Byte) :
    decode c (encode c i ++ rest) = .ok (i, rest) := by
  obtain ⟨hsh, henc⟩ | ⟨build, opnd, hsh, hb, henc⟩ := encode_shape c i
  · simp [henc, decode, decodeOpcode_opc h, hsh]
  · simp [henc, decode, decodeOpcode_opc h, hsh, hb]

/-- The instruction that a byte list decodes to has the mnemonic of the list's first byte. -/
theorem decodeOpcode_of_decode {c : Config} {b : Byte} {bytes rest : List Byte} {i : Instr}
    (h : decode c (b :: bytes) = .ok (i, rest)) : decodeOpcode c b = some i.mnemonic := by
  cases hd : decodeOpcode c b with
  | none => simp [decode, hd] at h
  | some m =>
    obtain ⟨j, hsh, hm⟩ | ⟨build, hsh, hm⟩ := m.shape_cases
    · simp only [decode, hd, hsh, Except.ok.injEq, Prod.mk.injEq] at h
      rw [← h.1, hm]
    · cases bytes with
      | nil => simp [decode, hd, hsh] at h
      | cons opnd bytes =>
        simp only [decode, hd, hsh, Except.ok.injEq, Prod.mk.injEq] at h
        rw [← h.1, hm]

end Sys2Proof

namespace Sys2Proof.Machine

/-! ## A register write, whatever the register -/

@[simp] theorem setReg_FLAGS (r : Dest) (v : Byte) (s : State) : (setReg r v s).FLAGS = s.FLAGS := by
  match r with
  | .gpr .A | .gpr .B | .out => rfl

@[simp] theorem setReg_pc (r : Dest) (v : Byte) (s : State) : (setReg r v s).pc = s.pc := by
  match r with
  | .gpr .A | .gpr .B | .out => rfl

@[simp] theorem setReg_status (r : Dest) (v : Byte) (s : State) : (setReg r v s).status = s.status := by
  match r with
  | .gpr .A | .gpr .B | .out => rfl

@[simp] theorem setReg_mem (r : Dest) (v : Byte) (s : State) : (setReg r v s).mem = s.mem := by
  match r with
  | .gpr .A | .gpr .B | .out => rfl

/-! ## The second increment of pc (R94) -/

/-- What follows the effect of an instruction: the second increment where it has an operand byte, else nothing. -/
def afterEffect (m : Mnemonic) : State → State :=
  match m.shape with
  | .noOperand _ => keepPc
  | .operand _ => incPc

theorem afterEffect_cases (m : Mnemonic) : afterEffect m = keepPc ∨ afterEffect m = incPc := by
  cases hsh : m.shape with
  | noOperand i => exact .inl (by simp only [afterEffect, hsh])
  | operand build => exact .inr (by simp only [afterEffect, hsh])

theorem afterEffect_frame (m : Mnemonic) (s : State) : afterEffect m s = { s with pc := (afterEffect m s).pc } := by
  obtain h | h := afterEffect_cases m <;> rw [h] <;> rfl

@[simp] theorem afterEffect_A (m : Mnemonic) (s : State) : (afterEffect m s).A = s.A := by rw [afterEffect_frame]

@[simp] theorem afterEffect_B (m : Mnemonic) (s : State) : (afterEffect m s).B = s.B := by rw [afterEffect_frame]

@[simp] theorem afterEffect_OUT (m : Mnemonic) (s : State) : (afterEffect m s).OUT = s.OUT := by rw [afterEffect_frame]

@[simp] theorem afterEffect_FLAGS (m : Mnemonic) (s : State) : (afterEffect m s).FLAGS = s.FLAGS := by
  rw [afterEffect_frame]

@[simp] theorem afterEffect_status (m : Mnemonic) (s : State) : (afterEffect m s).status = s.status := by
  rw [afterEffect_frame]

@[simp] theorem afterEffect_mem (m : Mnemonic) (s : State) : (afterEffect m s).mem = s.mem := by rw [afterEffect_frame]

@[simp] theorem memRead_afterEffect (a : Addr) (m : Mnemonic) (s : State) : memRead a (afterEffect m s) = memRead a s := by
  simp [memRead_eq]

/-- From a pc one past the opcode byte, what follows the effect moves pc past the whole instruction. -/
theorem afterEffect_pc (c : Config) (i : Instr) {p : Addr} {s : State} (h : s.pc = p + 1#8) :
    (afterEffect i.mnemonic s).pc = p + BitVec.ofNat 8 (encode c i).length := by
  obtain ⟨hsh, henc⟩ | ⟨build, opnd, hsh, -, henc⟩ := encode_shape c i
  · simp [afterEffect, hsh, henc, h]
  · simp [afterEffect, hsh, henc, h, BitVec.add_assoc]

/-! ## Effects -/

/-- The three things an execute stage can do to the state. -/
inductive Effect where
  | halt
  | store (a : Addr) (v : Byte)
  | write (r : Dest) (v : Int)

/-- What an instruction does in a state (R97 to R134). -/
def effect (c : Config) : Instr → State → Effect
  | .hlt, _ => .halt
  | .outl lit, _ => .write .out (literalValue lit)
  | .outr addr, s => .write .out (cellValue addr s)
  | .outa, s => .write .out (gprValue .A s)
  | .outb, s => .write .out (gprValue .B s)
  | .movla lit, _ => .write (.gpr .A) (literalValue lit)
  | .movlb lit, _ => .write (.gpr .B) (literalValue lit)
  | .movra addr, s => .write (.gpr .A) (cellValue addr s)
  | .movrb addr, s => .write (.gpr .B) (cellValue addr s)
  | .movar addr, s => .store addr (readGpr .A s)
  | .movbr addr, s => .store addr (readGpr .B s)
  | .adda, s => .write (.gpr .A) (gprValue .A s + gprValue .B s)
  | .addb, s => .write (.gpr .B) (gprValue .A s + gprValue .B s)
  | .subba, s => .write (.gpr .A) (gprValue .A s - gprValue .B s)
  | .subab, s => .write (.gpr .B) (gprValue .B s - gprValue .A s)
  | .anda, s => .write (.gpr .A) (unsigned (andAB s))
  | .andb, s => .write (.gpr .B) (unsigned (andAB s))
  | .ora, s => .write (.gpr c.oraDest) (unsigned (orAB s))
  | .orb, s => .write (.gpr .B) (unsigned (orAB s))

/-- An effect carried out for an instruction of mnemonic `m`. -/
def Effect.run (m : Mnemonic) : Effect → State → Result
  | .halt, s => .next (Machine.halt s)
  | .store a v, s => .next (afterEffect m (memWrite a v s))
  | .write r v, s => checkedWrite r v (afterEffect m) s

/-- The execute stage of every instruction is its effect. -/
theorem execWith_eq_run (c : Config) (i : Instr) (s : State) :
    execWith c i s = (effect c i s).run i.mnemonic s := by
  cases i <;> rfl

/-- The effect depends on A, B and memory alone. -/
theorem effect_congr (c : Config) (i : Instr) {s s' : State} (hA : s.A = s'.A) (hB : s.B = s'.B)
    (hmem : s.mem = s'.mem) : effect c i s = effect c i s' := by
  cases i <;> simp [effect, cellValue, gprValue, andAB, orAB, memRead_eq, hA, hB, hmem]

theorem effect_halt {c : Config} {i : Instr} {s : State} (h : effect c i s = .halt) : i = .hlt := by
  cases i with
  | hlt => rfl
  | _ => cases h

theorem effect_store {c : Config} {i : Instr} {s : State} {a : Addr} {v : Byte} (h : effect c i s = .store a v) :
    i = .movar a ∨ i = .movbr a := by
  cases i with
  | movar => cases h; exact .inl rfl
  | movbr => cases h; exact .inr rfl
  | _ => cases h

/-- The four instructions whose result can leave the byte range (R120). -/
def arithmetic : List Mnemonic := [.adda, .addb, .subba, .subab]

/-- The integer an instruction presents to a register is a byte, or it is a sum or difference of two bytes. -/
theorem effect_write_value {c : Config} {i : Instr} {s : State} {r : Dest} {v : Int} (h : effect c i s = .write r v) :
    (∃ b, unsigned b = v) ∨ (i.mnemonic ∈ arithmetic ∧ -255 ≤ v ∧ v ≤ 510) := by
  have hA := unsigned_range s.A
  have hB := unsigned_range s.B
  cases i with
  | adda | addb | subba | subab =>
    cases h
    exact .inr ⟨by decide, by simp only [gprValue, readGpr_A, readGpr_B]; omega⟩
  | hlt | movar | movbr => cases h
  | _ => cases h; exact .inl ⟨_, rfl⟩

/-! ## What the execute stage can do -/

/-- Everything an execute stage can do when it has a next state: halt, store, write a byte to a register, or, for the
four arithmetic instructions, fault with the true integer (R142). -/
theorem execWith_next_cases {c : Config} {i : Instr} {s t : State} (h : execWith c i s = .next t) :
    (i = .hlt ∧ t = halt s) ∨
    (∃ a v, (i = .movar a ∨ i = .movbr a) ∧ t = afterEffect i.mnemonic (memWrite a v s)) ∨
    (∃ r b, effect c i s = .write r (unsigned b) ∧ t = afterEffect i.mnemonic (setReg r b s)) ∨
    (∃ v, i.mnemonic ∈ arithmetic ∧ (256 ≤ v ∧ v ≤ 510 ∨ -255 ≤ v ∧ v ≤ -1) ∧ t = raise (.outOfRange v) s) := by
  rw [execWith_eq_run] at h
  cases he : effect c i s with
  | halt =>
    rw [he] at h
    cases h
    exact .inl ⟨effect_halt he, rfl⟩
  | store a v =>
    rw [he] at h
    cases h
    exact .inr (.inl ⟨a, v, effect_store he, rfl⟩)
  | write r v =>
    rw [he, Effect.run] at h
    obtain ⟨b, hb, hw⟩ | ⟨hv, hw⟩ := checkedWrite_cases r v (afterEffect i.mnemonic) s
    · rw [hw] at h
      cases h
      exact .inr (.inr (.inl ⟨r, b, by rw [hb], rfl⟩))
    · rw [hw] at h
      cases h
      obtain ⟨b, hb⟩ | ⟨hm, hlo, hhi⟩ := effect_write_value he
      · have := unsigned_range b
        omega
      · exact .inr (.inr (.inr ⟨v, hm, by omega, rfl⟩))

/-- The execute stage always has a next state (R95). -/
theorem execWith_next (c : Config) (i : Instr) (s : State) : ∃ t, execWith c i s = .next t := by
  rw [execWith_eq_run]
  cases effect c i s with
  | halt => exact ⟨_, rfl⟩
  | store a v => exact ⟨_, rfl⟩
  | write r v =>
    obtain ⟨b, -, hw⟩ | ⟨-, hw⟩ := checkedWrite_cases r v (afterEffect i.mnemonic) s
    · exact ⟨_, hw⟩
    · exact ⟨_, hw⟩

/-! ## The step as an equation -/

theorem stepWith_miss {c : Config} {s : State} (hrun : s.status = .running)
    (hd : decodeOpcode c (memRead s.pc s) = none) :
    stepWith c s = .next (raise (.illegalInstruction (memRead s.pc s)) (incPc s)) := by
  rw [stepWith_running hrun, fetchAndExecute_miss hd]

theorem operandAndExecute_eq (c : Config) (m : Mnemonic) (s : State) :
    operandAndExecute c m s = execWith c (m.instr (memRead s.pc s)) s := by
  cases hsh : m.shape with
  | noOperand i => simp only [operandAndExecute, Mnemonic.instr, hsh]
  | operand build => simp only [operandAndExecute, Mnemonic.instr, hsh]

theorem stepWith_hit {c : Config} {s : State} {m : Mnemonic} (hrun : s.status = .running)
    (hd : decodeOpcode c (memRead s.pc s) = some m) :
    stepWith c s = execWith c (m.instr (operandByte s)) (incPc s) := by
  rw [stepWith_running hrun, fetchAndExecute_hit hd, operandAndExecute_eq]
  rfl

/-- A Running CPU always has a next state. -/
theorem stepWith_next_of_running (c : Config) {s : State} (hrun : s.status = .running) :
    ∃ t, stepWith c s = .next t := by
  cases hd : decodeOpcode c (memRead s.pc s) with
  | none => exact ⟨_, stepWith_miss hrun hd⟩
  | some m =>
    rw [stepWith_hit hrun hd]
    exact execWith_next c _ _

/-! ## The run as an equation -/

/-- A run of a CPU that is not Running is over at once. -/
theorem runFor_not_running (c : Config) (fuel : Nat) {s : State} (h : s.status ≠ .running) :
    runFor c fuel s = .ended s := by
  cases fuel with
  | zero => simp [runFor, h]
  | succ fuel =>
    cases hs : s.status with
    | running => exact absurd hs h
    | halted => simp [runFor, hs]
    | faulted reason => simp [runFor, hs]

theorem runFor_zero_running (c : Config) {s : State} (h : s.status = .running) : runFor c 0 s = .outOfFuel s := by
  simp [runFor, h]

/-- A run takes one step and goes on with one unit of fuel less. -/
theorem runFor_succ_next {c : Config} {s t : State} (h : stepWith c s = .next t) (fuel : Nat) :
    runFor c (fuel + 1) s = runFor c fuel t := by
  simp [runFor, stepWith_next_running h, h]

end Sys2Proof.Machine
end

section
/-! O36, O35: OUT and FLAGS have no influence (R23, R24). Both follow from one lemma on the step: started with other
values of OUT and FLAGS, it reaches the same next state but for these two. -/

namespace Sys2Proof.Machine

/-- The state with other contents of OUT and FLAGS. -/
def withOutFlags (o : Byte) (f : BitVec 2) (s : State) : State := { s with OUT := o, FLAGS := f }

theorem sameButOutAndFlags_iff {s s' : State} :
    SameButOutAndFlags s s' ↔ s' = withOutFlags s'.OUT s'.FLAGS s := by
  constructor
  · rintro ⟨hA, hB, hpc, hstatus, hmem⟩
    simp [withOutFlags, hA, hB, hpc, hstatus, hmem]
  · intro h
    rw [h]
    exact ⟨rfl, rfl, rfl, rfl, rfl⟩

theorem afterEffect_withOutFlags (m : Mnemonic) (o : Byte) (f : BitVec 2) (s : State) :
    afterEffect m (withOutFlags o f s) = withOutFlags o f (afterEffect m s) := by
  obtain h | h := afterEffect_cases m <;> rw [h] <;> rfl

/-- An effect keeps other contents of FLAGS, and other contents of OUT unless it writes OUT itself. -/
theorem Effect.run_withOutFlags {m : Mnemonic} {e : Effect} {s t : State} (h : e.run m s = .next t) (o : Byte)
    (f : BitVec 2) : ∃ o', e.run m (withOutFlags o f s) = .next (withOutFlags o' f t) ∧ (o = s.OUT → o' = t.OUT) := by
  cases e with
  | halt =>
    cases h
    exact ⟨o, rfl, id⟩
  | store a v =>
    cases h
    exact ⟨o, congrArg _ (afterEffect_withOutFlags m o f (memWrite a v s)), by simp⟩
  | write r v =>
    obtain ⟨b, rfl, hw⟩ | ⟨hv, hw⟩ := checkedWrite_cases r v (afterEffect m) s
    · rw [Effect.run, hw] at h
      cases h
      simp only [Effect.run, checkedWrite_byte]
      match r with
      | .gpr .A => exact ⟨o, congrArg _ (afterEffect_withOutFlags m o f (setReg (.gpr .A) b s)), by simp⟩
      | .gpr .B => exact ⟨o, congrArg _ (afterEffect_withOutFlags m o f (setReg (.gpr .B) b s)), by simp⟩
      | .out => exact ⟨b, congrArg _ (afterEffect_withOutFlags m b f (setReg .out b s)), by simp⟩
    · rw [Effect.run, hw] at h
      cases h
      exact ⟨o, checkedWrite_out_of_range r hv _ _, id⟩

/-- A step from other contents of OUT and FLAGS: the same next state but for FLAGS, which stay as they were, and OUT. -/
theorem stepWith_withOutFlags {c : Config} {s t : State} (h : stepWith c s = .next t) (o : Byte) (f : BitVec 2) :
    ∃ o', stepWith c (withOutFlags o f s) = .next (withOutFlags o' f t) ∧ (o = s.OUT → o' = t.OUT) := by
  have hrun := stepWith_next_running h
  cases hd : decodeOpcode c (memRead s.pc s) with
  | none =>
    rw [stepWith_miss hrun hd] at h
    cases h
    exact ⟨o, stepWith_miss (s := withOutFlags o f s) hrun hd, id⟩
  | some m =>
    have hit : stepWith c (withOutFlags o f s) =
        execWith c (m.instr (operandByte s)) (withOutFlags o f (incPc s)) :=
      stepWith_hit (s := withOutFlags o f s) hrun hd
    rw [stepWith_hit hrun hd, execWith_eq_run] at h
    have heffect := effect_congr c (m.instr (operandByte s))
      (s := withOutFlags o f (incPc s)) (s' := incPc s) rfl rfl rfl
    rw [hit, execWith_eq_run, heffect]
    exact Effect.run_withOutFlags h o f

/-- No step writes FLAGS. -/
theorem stepWith_FLAGS {c : Config} {s t : State} (h : stepWith c s = .next t) : t.FLAGS = s.FLAGS := by
  obtain ⟨o', hstep, -⟩ := stepWith_withOutFlags h s.OUT s.FLAGS
  have hsame : withOutFlags s.OUT s.FLAGS s = s := rfl
  rw [hsame, h, Host.Outcome.next.injEq] at hstep
  rw [hstep]
  rfl

/-- Agreement but for OUT and FLAGS is a simulation. -/
theorem stepWith_same {c : Config} {s s' t : State} (hs : SameButOutAndFlags s s') (h : stepWith c s = .next t) :
    ∃ t', stepWith c s' = .next t' ∧ SameButOutAndFlags t t' := by
  obtain ⟨o', hstep, -⟩ := stepWith_withOutFlags h s'.OUT s'.FLAGS
  rw [← sameButOutAndFlags_iff.mp hs] at hstep
  exact ⟨_, hstep, sameButOutAndFlags_iff.mpr rfl⟩

/-- Two results of a run that end in the same way, in states that agree but for OUT and FLAGS. -/
inductive SameResult : RunResult → RunResult → Prop where
  | ended {t t' : State} (h : SameButOutAndFlags t t') : SameResult (.ended t) (.ended t')
  | outOfFuel {t t' : State} (h : SameButOutAndFlags t t') : SameResult (.outOfFuel t) (.outOfFuel t')

theorem runFor_same (c : Config) (fuel : Nat) {s s' : State} (h : SameButOutAndFlags s s') :
    SameResult (runFor c fuel s) (runFor c fuel s') := by
  induction fuel generalizing s s' with
  | zero =>
    by_cases hrun : s.status = .running
    · rw [runFor_zero_running c hrun, runFor_zero_running c (h.status ▸ hrun)]
      exact .outOfFuel h
    · rw [runFor_not_running c 0 hrun, runFor_not_running c 0 (h.status ▸ hrun)]
      exact .ended h
  | succ fuel ih =>
    by_cases hrun : s.status = .running
    · obtain ⟨t, ht⟩ := stepWith_next_of_running c hrun
      obtain ⟨t', ht', hsame⟩ := stepWith_same h ht
      rw [runFor_succ_next ht, runFor_succ_next ht']
      exact ih hsame
    · rw [runFor_not_running c _ hrun, runFor_not_running c _ (h.status ▸ hrun)]
      exact .ended h

/-- Settles O36, by induction on the fuel over the simulation `stepWith_same`. -/
theorem outAndFlagsNeverInfluenceARun : Obligations.OutAndFlagsNeverInfluenceARun := by
  intro c fuel s s' h
  have hres := runFor_same c fuel h
  constructor
  · intro t ht
    rw [ht] at hres
    generalize runFor c fuel s' = r' at hres
    cases hres with
    | ended hsame => exact ⟨_, rfl, hsame⟩
  · intro t ht
    rw [ht] at hres
    generalize runFor c fuel s' = r' at hres
    cases hres with
    | outOfFuel hsame => exact ⟨_, rfl, hsame⟩

/-- Settles O35, from `stepWith_withOutFlags` with OUT as it is. -/
theorem flagsAreNeitherReadNorWritten : Obligations.FlagsAreNeitherReadNorWritten := by
  intro c s t f h
  obtain ⟨o', hstep, hout⟩ := stepWith_withOutFlags h s.OUT f
  rw [hout rfl] at hstep
  exact ⟨stepWith_FLAGS h, hstep⟩

end Sys2Proof.Machine
end

section
/-! O42, O43, O44: the invariant, at reset, along a step and at every reachable state. -/

namespace Sys2Proof.Machine

/-- The execute stage keeps the memory's canonical form. -/
theorem execWith_mem_wf {c : Config} {i : Instr} {s t : State} (h : execWith c i s = .next t)
    (hmem : s.mem.wf = true) : t.mem.wf = true := by
  obtain ⟨-, rfl⟩ | ⟨a, v, -, rfl⟩ | ⟨r, b, -, rfl⟩ | ⟨v, -, -, rfl⟩ := execWith_next_cases h
  · exact hmem
  · rw [afterEffect_mem]
    exact memWrite_wf a v hmem
  · rw [afterEffect_mem, setReg_mem]
    exact hmem
  · exact hmem

/-- The execute stage keeps a legal status: the only reason it raises is an integer the arithmetic can produce. -/
theorem execWith_status_legal {c : Config} {i : Instr} {s t : State} (h : execWith c i s = .next t)
    (hstatus : s.status.legal c = true) : t.status.legal c = true := by
  obtain ⟨-, rfl⟩ | ⟨a, v, -, rfl⟩ | ⟨r, b, -, rfl⟩ | ⟨v, -, hv, rfl⟩ := execWith_next_cases h
  · rfl
  · simpa using hstatus
  · simpa using hstatus
  · simpa [Status.legal, FaultReason.legal] using hv

/-- Settles O42, by the cases of a step: a decode miss, or an execute stage. -/
theorem everyStepKeepsTheInvariant : Obligations.EveryStepKeepsTheInvariant := by
  intro c s t ⟨hmem, hflags, hstatus⟩ h
  have hflags' : t.FLAGS = 0#2 := (stepWith_FLAGS h).trans hflags
  obtain ⟨-, ⟨hd, rfl⟩ | ⟨i, -, hexec, -⟩⟩ := stepWith_next_cases h
  · exact ⟨hmem, hflags', by simpa [Status.legal, FaultReason.legal] using hd⟩
  · exact ⟨execWith_mem_wf hexec hmem, hflags', execWith_status_legal hexec hstatus⟩

/-- Settles O43: the reset state lists no cell and is Running with FLAGS 0. -/
theorem resetHasTheInvariant : Obligations.ResetHasTheInvariant :=
  fun _ => ⟨State.reset_mem_wf, rfl, rfl⟩

theorem storeBytes_inv {c : Config} {s : State} (a : Addr) (vs : List Byte) (h : Inv c s) :
    Inv c (storeBytes a vs s) :=
  ⟨storeBytes_wf a vs h.memCanonical, by simpa using h.flagsZero, by simpa using h.statusLegal⟩

/-- A load that is not refused stores the image's bytes in the reset state. -/
theorem loadImage_next {img : List Int} {t : State} (h : loadImage img = .next t) :
    t = storeBytes 0#8 (img.map (BitVec.ofInt 8)) State.reset := by
  unfold loadImage at h
  split at h
  · cases h
  · split at h
    · cases h
    · cases h
      rfl

theorem reachable_inv {c : Config} {s : State} (h : Reachable c s) : Inv c s := by
  induction h with
  | load h =>
    rw [loadImage_next h]
    exact storeBytes_inv _ _ (resetHasTheInvariant c)
  | step _ h ih => exact everyStepKeepsTheInvariant c _ _ ih h

/-- Settles O44, by induction on reachability. -/
theorem reachableStatesHaveTheInvariant : Obligations.ReachableStatesHaveTheInvariant :=
  fun _ _ h => ⟨reachable_inv h, (reachable_inv h).flagsZero⟩

end Sys2Proof.Machine
end

section
/-! O14, O15: the program counter (R26, R27, R98). -/

namespace Sys2Proof.Machine

/-- Instructions with one mnemonic have one length. -/
theorem encode_length_congr (c : Config) {i j : Instr} (h : i.mnemonic = j.mnemonic) :
    (encode c i).length = (encode c j).length := by
  obtain ⟨hi, ei⟩ | ⟨bi, oi, hi, -, ei⟩ := encode_shape c i
  · obtain ⟨hj, ej⟩ | ⟨bj, oj, hj, -, ej⟩ := encode_shape c j
    · simp [ei, ej]
    · rw [h, hj] at hi
      cases hi
  · obtain ⟨hj, ej⟩ | ⟨bj, oj, hj, -, ej⟩ := encode_shape c j
    · rw [h, hj] at hi
      cases hi
    · simp [ei, ej]

theorem encode_length_of_arithmetic (c : Config) {i : Instr} (h : i.mnemonic ∈ arithmetic) :
    (encode c i).length = 1 := by
  cases i with
  | adda | addb | subba | subab => rfl
  | _ => exact absurd h (by simp [arithmetic, Instr.mnemonic])

/-- The execute stage leaves pc past the whole instruction, also where it halts or faults. -/
theorem execWith_pc {c : Config} {i : Instr} {p : Addr} {s t : State} (h : execWith c i s = .next t)
    (hpc : s.pc = p + 1#8) : t.pc = p + BitVec.ofNat 8 (encode c i).length := by
  obtain ⟨rfl, rfl⟩ | ⟨a, v, -, rfl⟩ | ⟨r, b, -, rfl⟩ | ⟨v, hm, -, rfl⟩ := execWith_next_cases h
  · exact hpc
  · exact afterEffect_pc c i hpc
  · exact afterEffect_pc c i ((setReg_pc r b s).trans hpc)
  · rw [encode_length_of_arithmetic c hm]
    exact hpc

/-- Settles O14: the decoder and the step agree on the mnemonic, which fixes the length. -/
theorem pcMovesByTheInstructionLength : Obligations.PcMovesByTheInstructionLength := by
  intro c s t h
  obtain ⟨-, ⟨hd, rfl⟩ | ⟨j, hd, hexec, -⟩⟩ := stepWith_next_cases h
  · refine ⟨fun i rest hdec => ?_, fun _ => rfl⟩
    rw [decodeOpcode_of_decode hdec] at hd
    cases hd
  · refine ⟨fun i rest hdec => ?_, fun hnone => ?_⟩
    · rw [decodeOpcode_of_decode hdec, Option.some.injEq] at hd
      rw [encode_length_congr c hd]
      exact execWith_pc hexec rfl
    · rw [hnone] at hd
      cases hd

/-- Where the bytes at pc are an instruction's encoding, a step moves pc past them. -/
theorem stepWith_pc_of_encode {c : Config} {s t : State} {i : Instr} {rest : List Byte} (hc : c.admissible = true)
    (h : stepWith c s = .next t) (hw : fetchWindow s = encode c i ++ rest) :
    t.pc = s.pc + BitVec.ofNat 8 (encode c i).length := by
  have hdec : decode c (fetchWindow s) = .ok (i, rest) := by
    rw [hw, decode_encode (Config.admissible_injective hc)]
  exact (pcMovesByTheInstructionLength c s t h).1 i rest hdec

/-- Settles O15, from O14's rule at pc = 255, where the byte after the opcode is at address 0. -/
theorem pcWrapsFromTheTop : Obligations.PcWrapsFromTheTop := by
  refine ⟨fun s => ⟨by simp [BitVec.toNat_add], rfl⟩, fun c s t i hc hpc h => ?_⟩
  have hwin : fetchWindow s = [memRead 0xFF#8 s, memRead 0x00#8 s] := by
    rw [fetchWindow, operandByte, hpc]
    rfl
  constructor
  · intro henc
    rw [stepWith_pc_of_encode (i := i) (rest := [memRead 0x00#8 s]) hc h (by rw [hwin, henc]; rfl), henc, hpc]
    simp
  · intro henc
    rw [stepWith_pc_of_encode (i := i) (rest := []) hc h (by rw [hwin, henc]; rfl), henc, hpc]
    simp

end Sys2Proof.Machine
end

section
/-! O33, O34: what an instruction can change (R20, R33, R43, R52). -/

namespace Sys2Proof.Machine

theorem effect_write_A {c : Config} {i : Instr} {s : State} {v : Int} (h : effect c i s = .write (.gpr .A) v) :
    i.mnemonic ∈ [Mnemonic.movla, .movra, .adda, .subba, .anda] ∨ (i.mnemonic = .ora ∧ c.oraDest = .A) := by
  cases i with
  | movla | movra | adda | subba | anda => exact .inl (by simp [Instr.mnemonic])
  | ora =>
    rw [effect, Effect.write.injEq, Dest.gpr.injEq] at h
    exact .inr ⟨rfl, h.1⟩
  | _ => cases h

theorem effect_write_B {c : Config} {i : Instr} {s : State} {v : Int} (h : effect c i s = .write (.gpr .B) v) :
    i.mnemonic ∈ [Mnemonic.movlb, .movrb, .addb, .subab, .andb, .orb] ∨ (i.mnemonic = .ora ∧ c.oraDest = .B) := by
  cases i with
  | movlb | movrb | addb | subab | andb | orb => exact .inl (by simp [Instr.mnemonic])
  | ora =>
    rw [effect, Effect.write.injEq, Dest.gpr.injEq] at h
    exact .inr ⟨rfl, h.1⟩
  | _ => cases h

theorem effect_write_out {c : Config} {i : Instr} {s : State} {v : Int} (h : effect c i s = .write .out v) :
    i.mnemonic ∈ [Mnemonic.outl, .outr, .outa, .outb] := by
  cases i with
  | outl | outr | outa | outb => simp [Instr.mnemonic]
  | _ => cases h

/-- The contents of the cell that a checked write goes to. -/
def readDest : Dest → State → Byte
  | .gpr r, s => readGpr r s
  | .out, s => s.OUT

@[simp] theorem readDest_afterEffect (r : Dest) (m : Mnemonic) (s : State) :
    readDest r (afterEffect m s) = readDest r s := by
  match r with
  | .gpr .A | .gpr .B | .out => simp [readDest]

@[simp] theorem readDest_memWrite (r : Dest) (a : Addr) (v : Byte) (s : State) :
    readDest r (memWrite a v s) = readDest r s := by
  match r with
  | .gpr .A | .gpr .B | .out => rfl

theorem readDest_setReg_other {r r' : Dest} (h : r ≠ r') (v : Byte) (s : State) :
    readDest r (setReg r' v s) = readDest r s := by
  match r, r' with
  | .gpr .A, .gpr .A | .gpr .B, .gpr .B | .out, .out => exact absurd rfl h
  | .gpr .A, .gpr .B | .gpr .A, .out | .gpr .B, .gpr .A | .gpr .B, .out | .out, .gpr .A | .out, .gpr .B => rfl

@[simp] theorem readDest_incPc (r : Dest) (s : State) : readDest r (incPc s) = readDest r s := by
  match r with
  | .gpr .A | .gpr .B | .out => rfl

@[simp] theorem readDest_halt (r : Dest) (s : State) : readDest r (halt s) = readDest r s := by
  match r with
  | .gpr .A | .gpr .B | .out => rfl

@[simp] theorem readDest_raise (r : Dest) (reason : FaultReason) (s : State) :
    readDest r (raise reason s) = readDest r s := by
  match r with
  | .gpr .A | .gpr .B | .out => rfl

/-- A register that an execute stage changes is the one its effect writes. -/
theorem effect_of_readDest_ne {c : Config} {i : Instr} {s t : State} {r : Dest} (h : execWith c i s = .next t)
    (hne : readDest r t ≠ readDest r s) : ∃ v, effect c i s = .write r v := by
  obtain ⟨-, rfl⟩ | ⟨a, v, -, rfl⟩ | ⟨r', b, he, rfl⟩ | ⟨v, -, -, rfl⟩ := execWith_next_cases h
  · exact absurd (readDest_halt r s) hne
  · exact absurd (by simp) hne
  · by_cases hr : r = r'
    · exact ⟨_, hr ▸ he⟩
    · exact absurd (by simp [readDest_setReg_other hr]) hne
  · exact absurd (readDest_raise r _ s) hne

/-- A register that a step changes is the one that the instruction it runs writes. -/
theorem stepWith_readDest_ne {c : Config} {s t : State} {r : Dest} (h : stepWith c s = .next t)
    (hne : readDest r t ≠ readDest r s) :
    ∃ i v, decodeOpcode c (memRead s.pc s) = some i.mnemonic ∧ effect c i (incPc s) = .write r v := by
  obtain ⟨-, ⟨-, rfl⟩ | ⟨i, hd, hexec, -⟩⟩ := stepWith_next_cases h
  · exact absurd (by simp) hne
  · obtain ⟨v, he⟩ := effect_of_readDest_ne (r := r) hexec (by simpa using hne)
    exact ⟨i, v, hd, he⟩

/-- Only HLT and the four arithmetic instructions change status in the execute stage. -/
theorem execWith_status_ne {c : Config} {i : Instr} {s t : State} (h : execWith c i s = .next t)
    (hne : t.status ≠ s.status) : i = .hlt ∨ i.mnemonic ∈ arithmetic := by
  obtain ⟨hi, -⟩ | ⟨a, v, -, rfl⟩ | ⟨r, b, -, rfl⟩ | ⟨v, hm, -, -⟩ := execWith_next_cases h
  · exact .inl hi
  · exact absurd (by simp) hne
  · exact absurd (by simp) hne
  · exact .inr hm

/-- Settles O33: the register that changes is the one the effect writes, and each effect names its register. -/
theorem onlyTheListedInstructionsWriteEachRegister : Obligations.OnlyTheListedInstructionsWriteEachRegister := by
  intro c s t h
  refine ⟨fun hA => ?_, fun hB => ?_, fun hOut => ?_, fun hstatus m hm => ?_⟩
  · obtain ⟨i, v, hd, he⟩ := stepWith_readDest_ne (r := .gpr .A) h hA
    exact ⟨_, hd, effect_write_A he⟩
  · obtain ⟨i, v, hd, he⟩ := stepWith_readDest_ne (r := .gpr .B) h hB
    exact ⟨_, hd, effect_write_B he⟩
  · obtain ⟨i, v, hd, he⟩ := stepWith_readDest_ne (r := .out) h hOut
    exact ⟨_, hd, effect_write_out he⟩
  · obtain ⟨-, ⟨hnone, -⟩ | ⟨i, hd, hexec, -⟩⟩ := stepWith_next_cases h
    · rw [hnone] at hm
      cases hm
    · rw [hd, Option.some.injEq] at hm
      subst hm
      obtain rfl | harith := execWith_status_ne hexec hstatus
      · exact List.mem_cons_self
      · exact List.mem_cons_of_mem _ harith

/-- Settles O34: of the cases of the execute stage only the store touches memory, and only its own cell. -/
theorem onlyTheAddressedCellOfAStoreChanges : Obligations.OnlyTheAddressedCellOfAStoreChanges := by
  intro c i s t a h hne
  obtain ⟨-, rfl⟩ | ⟨a', v, hi, rfl⟩ | ⟨r, b, -, rfl⟩ | ⟨v, -, -, rfl⟩ := execWith_next_cases h
  · exact absurd (memRead_halt a s) hne
  · by_cases ha : a = a'
    · exact ha ▸ hi
    · exact absurd (by simp [memRead_memWrite_other v s ha]) hne
  · exact absurd (by simp) hne
  · exact absurd (memRead_raise a _ s) hne

end Sys2Proof.Machine
end

section
/-! O40: the canonical form determines the memory (log 23). -/

namespace Sys2Proof.Machine

theorem Memory.read_head (k : Nat) (v : Byte) (m : Memory) : Memory.read ((k, v) :: m) k = v := by
  simp [Memory.read]

theorem Memory.read_tail {k a : Nat} (h : k ≠ a) (v : Byte) (m : Memory) :
    Memory.read ((k, v) :: m) a = Memory.read m a := by
  simp [Memory.read, h]

/-- No listed address of a canonical memory is below its first one. -/
theorem Memory.head_le_of_read {lo k a : Nat} {v : Byte} {m : Memory} (h : Memory.wfFrom lo ((k, v) :: m) = true)
    (ha : Memory.read ((k, v) :: m) a ≠ Memory.unlisted) : k ≤ a := by
  have hk : Memory.wfFrom k ((k, v) :: m) = true := by
    rw [Memory.wfFrom_cons] at h ⊢
    exact ⟨le_rfl, h.2⟩
  by_contra hlt
  exact ha (Memory.read_below hk (Nat.not_le.mp hlt))

/-- Canonical memories that read alike on the 256 addresses are equal. -/
theorem Memory.ext_read {lo : Nat} {m m' : Memory} (h : Memory.wfFrom lo m = true) (h' : Memory.wfFrom lo m' = true)
    (hread : ∀ a < 256, m.read a = m'.read a) : m = m' := by
  induction m generalizing lo m' with
  | nil =>
    cases m' with
    | nil => rfl
    | cons e' m' =>
      obtain ⟨k', v'⟩ := e'
      obtain ⟨-, hk', hv', -⟩ := (Memory.wfFrom_cons lo k' v' m').mp h'
      exact absurd ((hread k' hk').trans (Memory.read_head k' v' m')) (Ne.symm hv')
  | cons e m ih =>
    obtain ⟨k, v⟩ := e
    obtain ⟨-, hk, hv, hm⟩ := (Memory.wfFrom_cons lo k v m).mp h
    have hhead : Memory.read m' k = v := (hread k hk).symm.trans (Memory.read_head k v m)
    cases m' with
    | nil => exact absurd hhead.symm hv
    | cons e' m' =>
      obtain ⟨k', v'⟩ := e'
      obtain ⟨-, hk', hv', hm'⟩ := (Memory.wfFrom_cons lo k' v' m').mp h'
      have hhead' : Memory.read ((k, v) :: m) k' = v' := (hread k' hk').trans (Memory.read_head k' v' m')
      have hle : k' ≤ k := Memory.head_le_of_read h' (hhead ▸ hv)
      have hle' : k ≤ k' := Memory.head_le_of_read h (hhead' ▸ hv')
      obtain rfl : k = k' := le_antisymm hle' hle
      obtain rfl : v' = v := (Memory.read_head k v' m').symm.trans hhead
      rw [ih hm hm' fun a ha => ?_]
      by_cases hka : k = a
      · subst hka
        rw [Memory.read_below hm (Nat.lt_succ_self k), Memory.read_below hm' (Nat.lt_succ_self k)]
      · simpa only [Memory.read_tail hka] using hread a ha

/-- Settles O40: every address below 256 is a byte address. -/
theorem equalReadsMeanEqualMemories : Obligations.EqualReadsMeanEqualMemories := by
  intro m m' h h' hread
  refine Memory.ext_read h h' fun a ha => ?_
  simpa [Nat.mod_eq_of_lt ha] using hread (BitVec.ofNat 8 a)

end Sys2Proof.Machine
end

section
/-! O45: the state after a load (R34, R170, R173). -/

namespace Sys2Proof.Machine

/-- Reading after bytes are stored from address `a` on: the stored byte, or the old cell past them. -/
theorem memRead_storeBytes (a b : Addr) (vs : List Byte) (s : State) (h : vs.length ≤ 256) :
    memRead b (storeBytes a vs s) = vs.getD (b - a).toNat (memRead b s) := by
  induction vs generalizing a s with
  | nil => rfl
  | cons v vs ih =>
    have hlen : vs.length + 1 ≤ 256 := h
    rw [storeBytes, ih _ _ (by omega)]
    by_cases hb : b = a
    · subst hb
      have hlast : (b - (b + 1#8)).toNat = 255 := by bv_omega
      rw [hlast, List.getD_eq_default _ _ (by omega), memRead_memWrite_same]
      simp
    · have hnext : (b - a).toNat = (b - (a + 1#8)).toNat + 1 := by bv_omega
      rw [hnext, List.getD_cons_succ, memRead_memWrite_other v s hb]

theorem imageWellFormed_iff (img : List Int) :
    imageWellFormed img = true ↔ img.length ≤ 256 ∧ ∀ v ∈ img, 0 ≤ v ∧ v ≤ 255 := by
  simp [imageWellFormed]

/-- A legal image is stored from address 0 in the reset state. -/
theorem loadImage_of_wellFormed {img : List Int} (h : imageWellFormed img = true) :
    loadImage img = .next (storeBytes 0#8 (img.map (BitVec.ofInt 8)) State.reset) := by
  obtain ⟨hlen, hrange⟩ := (imageWellFormed_iff img).mp h
  have hfind : (img.find? fun v => !inByteRange v) = none := by
    simpa [inByteRange_iff] using hrange
  have hshort : ¬ Config.memSize < img.length := Nat.not_lt.mpr hlen
  simp [loadImage, hshort, hfind]

theorem unsigned_ofInt {v : Int} (h : 0 ≤ v ∧ v ≤ 255) : unsigned (BitVec.ofInt 8 v) = v := by
  simp only [unsigned, BitVec.toNat_ofInt]
  omega

/-- Converting a legal image to bytes loses nothing. -/
theorem unsigned_getD_map_ofInt {img : List Int} (h : ∀ v ∈ img, 0 ≤ v ∧ v ≤ 255) (n : Nat) :
    unsigned ((img.map (BitVec.ofInt 8)).getD n 0#8) = img.getD n 0 := by
  have hmap : (img.map (BitVec.ofInt 8)).getD n 0#8 = BitVec.ofInt 8 (img.getD n 0) :=
    List.getD_map img 0 (BitVec.ofInt 8)
  rw [hmap]
  refine unsigned_ofInt ?_
  by_cases hn : n < img.length
  · rw [List.getD_eq_getElem _ _ hn]
    exact h _ (List.getElem_mem hn)
  · rw [List.getD_eq_default _ _ (Nat.not_lt.mp hn)]
    decide

/-- Settles O45: the load is `storeBytes` on the reset state, whose cells all read 0. -/
theorem loadGivesEveryResetValue : Obligations.LoadGivesEveryResetValue := by
  intro c img before h
  obtain ⟨hlen, hrange⟩ := (imageWellFormed_iff img).mp h
  refine ⟨⟨_, loadImage_of_wellFormed h, ?_⟩, fun u hu => by cases hu⟩
  simp only [storeBytes_pc, storeBytes_A, storeBytes_B, storeBytes_OUT, storeBytes_FLAGS, storeBytes_status]
  refine ⟨rfl, rfl, rfl, rfl, rfl, rfl, fun a => ?_⟩
  rw [memRead_storeBytes _ _ _ _ (by simpa using hlen), BitVec.sub_zero]
  exact unsigned_getD_map_ofInt hrange a.toNat

end Sys2Proof.Machine
end

section
/-! O9: the step runs the instruction that the decoder reads from the two bytes at pc (R46, R91 to R95). -/

namespace Sys2Proof.Machine

/-- What the decoder reads from two bytes is its mnemonic completed by the second byte. -/
theorem instr_mnemonic_of_decode {c : Config} {b opnd : Byte} {rest : List Byte} {i : Instr}
    (h : decode c [b, opnd] = .ok (i, rest)) : i.mnemonic.instr opnd = i := by
  have hd := decodeOpcode_of_decode h
  cases hsh : i.mnemonic.shape with
  | noOperand j =>
    simp only [decode, hd, hsh, Except.ok.injEq, Prod.mk.injEq] at h
    simp only [Mnemonic.instr, hsh, h.1]
  | operand build =>
    simp only [decode, hd, hsh, Except.ok.injEq, Prod.mk.injEq] at h
    simp only [Mnemonic.instr, hsh, h.1]

/-- Where the bytes at pc decode to an instruction, a step of a Running CPU is its execute stage. -/
theorem stepWith_of_decode {c : Config} {s : State} {i : Instr} {rest : List Byte} (hrun : s.status = .running)
    (h : decode c (fetchWindow s) = .ok (i, rest)) : stepWith c s = execWith c i (incPc s) := by
  rw [stepWith_hit hrun (decodeOpcode_of_decode h), instr_mnemonic_of_decode h]

theorem step_of_decode {s : State} {i : Instr} {rest : List Byte} (hrun : s.status = .running)
    (h : decode defaultConfig (fetchWindow s) = .ok (i, rest)) : step s = exec i (incPc s) :=
  (stepWith_of_decode hrun h).trans (execWith_default i (incPc s))

theorem decode_of_decodeTableWord {nbits w : Nat} {i : Instr} (h : decodeTableWord nbits w = some i) :
    ∃ rest, decode defaultConfig (tableBytes nbits w) = .ok (i, rest) := by
  unfold decodeTableWord at h
  split at h
  · next hdec =>
    cases h
    exact ⟨_, hdec⟩
  · cases h

/-- Settles O9: the bytes fetched after the placing are those of the word (`placeWord_fetch`). -/
theorem placedTableWordRunsNext : Obligations.PlacedTableWordRunsNext := by
  intro s nbits w i h
  obtain ⟨hrun, hpc, hbytes⟩ := placeWord_fetch nbits w s
  obtain ⟨rest, hdec⟩ := decode_of_decodeTableWord h
  have hwin : fetchWindow (placeWord nbits w s) = tableBytes nbits w := by
    rw [fetchWindow, operandByte, hpc, hbytes]
  rw [State.withFetchWord, step_of_decode hrun (hwin ▸ hdec), incPc, hpc, ← hrun]

end Sys2Proof.Machine
end

section
/-! O38: a store to the cell after the store instruction is fetched next (R53, R177). -/

namespace Sys2Proof

/-- R67 point 2: the source fixes HLT's opcode byte. -/
theorem Config.admissible_opc_hlt {c : Config} (hc : c.admissible = true) : c.opc .hlt = 0x00#8 := by
  simp only [Config.admissible, Config.opcAnchored, Bool.and_eq_true, beq_iff_eq] at hc
  obtain ⟨-, ⟨⟨⟨hhlt, -⟩, -⟩, -⟩, -⟩ := hc
  exact hhlt

end Sys2Proof

namespace Sys2Proof.Machine

/-- Where the opcode byte at pc is that of `m`, a step is `m`'s execute stage. -/
theorem stepWith_of_fetches {c : Config} {s : State} {m : Mnemonic} (hc : c.admissible = true) (h : Fetches c s m) :
    stepWith c s = execWith c (m.instr (operandByte s)) (incPc s) := by
  obtain ⟨hrun, hbyte⟩ := h
  refine stepWith_hit hrun ?_
  rw [hbyte, decodeOpcode_opc (Config.admissible_injective hc)]

/-- A Running CPU with the byte 0 at pc halts in its next step. -/
theorem stepWith_zero_halts {c : Config} {s : State} (hc : c.admissible = true) (hrun : s.status = .running)
    (hzero : memRead s.pc s = 0x00#8) : stepWith c s = .next (halt (incPc s)) :=
  stepWith_of_fetches hc ⟨hrun, hzero.trans (Config.admissible_opc_hlt hc).symm⟩

/-- The state after a store instruction at pc has stored `v` in the cell that its operand names. -/
def afterStore (v : Byte) (s : State) : State := incPc (memWrite (operandByte s) v (incPc s))

theorem stepWith_movar {c : Config} {s : State} (hc : c.admissible = true) (h : Fetches c s .movar) :
    stepWith c s = .next (afterStore s.A s) :=
  stepWith_of_fetches hc h

theorem stepWith_movbr {c : Config} {s : State} (hc : c.admissible = true) (h : Fetches c s .movbr) :
    stepWith c s = .next (afterStore s.B s) :=
  stepWith_of_fetches hc h

/-- A store whose operand names the cell after the instruction leaves the stored byte at pc. -/
theorem memRead_pc_afterStore {s : State} (hopnd : operandByte s = s.pc + 2#8) (v : Byte) :
    memRead (afterStore v s).pc (afterStore v s) = v := by
  have hpc : (afterStore v s).pc = operandByte s := by
    simp [afterStore, hopnd, BitVec.add_assoc]
  rw [hpc, afterStore, memRead_incPc, memRead_memWrite_same]

/-- After a store ahead the stored byte is the next opcode, and a stored 0 halts. -/
theorem afterStore_is_fetched {c : Config} {s : State} (hc : c.admissible = true) (hrun : s.status = .running)
    (hopnd : operandByte s = s.pc + 2#8) (v : Byte) :
    (afterStore v s).status = .running ∧ memRead (afterStore v s).pc (afterStore v s) = v ∧
    (v = 0x00#8 → ∃ u, stepWith c (afterStore v s) = .next u ∧ u.status = .halted) := by
  have hread := memRead_pc_afterStore hopnd v
  exact ⟨hrun, hread, fun hv => ⟨_, stepWith_zero_halts hc hrun (hread.trans hv), rfl⟩⟩

/-- Settles O38: both stores lead to `afterStore` of the register they store. -/
theorem storeAheadIsTheNextOpcode : Obligations.StoreAheadIsTheNextOpcode := by
  intro c s hc hopnd
  constructor
  · intro h
    exact ⟨_, stepWith_movar hc h, afterStore_is_fetched hc h.1 hopnd s.A⟩
  · intro h
    exact ⟨_, stepWith_movbr hc h, afterStore_is_fetched hc h.1 hopnd s.B⟩

end Sys2Proof.Machine
end

section
/-! O41: the argument checks of the Memory component (R44, R143). -/

namespace Sys2Proof.Machine

theorem addr_in_range (a : Addr) : 0 ≤ (a.toNat : Int) ∧ (a.toNat : Int) < Config.memSize :=
  ⟨Int.natCast_nonneg _, Int.ofNat_lt.mpr a.isLt⟩

theorem not_in_range_of_outside {a : Int} (h : a < 0 ∨ 255 < a) : ¬ (0 ≤ a ∧ a < Config.memSize) := by
  simp only [Config.memSize]
  omega

theorem Memory.checkedRead_outside (m : Memory) {a : Int} (h : a < 0 ∨ 255 < a) :
    m.checkedRead a = .error (.invalidAddress a) :=
  if_neg (not_in_range_of_outside h)

theorem Memory.checkedWrite_of_byte (m : Memory) (a : Addr) (v : Byte) :
    m.checkedWrite a.toNat v.toNat = .ok (m.write a.toNat v) := by
  have hv : narrow v.toNat = some v := narrow_unsigned v
  rw [Memory.checkedWrite, if_pos (addr_in_range a), hv]
  rfl

/-- A bad address is reported whatever the value. -/
theorem Memory.checkedWrite_address_outside (m : Memory) {a : Int} (v : Int) (h : a < 0 ∨ 255 < a) :
    m.checkedWrite a v = .error (.outOfRange a) :=
  if_neg (not_in_range_of_outside h)

theorem Memory.checkedWrite_value_outside (m : Memory) (a : Addr) {v : Int} (h : v < 0 ∨ 255 < v) :
    m.checkedWrite a.toNat v = .error (.outOfRange v) := by
  rw [Memory.checkedWrite, if_pos (addr_in_range a), narrow_out_of_range h]

/-- Settles O41, a lemma for each of the two checked operations and each way its arguments can be. -/
theorem memoryChecksFireOnlyOutsideBytes : Obligations.MemoryChecksFireOnlyOutsideBytes :=
  fun m => ⟨m.checkedRead_of_byte, m.checkedWrite_of_byte, fun _ h => m.checkedRead_outside h,
    fun _ v h => m.checkedWrite_address_outside v h, fun a _ h => m.checkedWrite_value_outside a h⟩

end Sys2Proof.Machine
end

section
/-! O39: one memory write (R43). -/

namespace Sys2Proof.Machine

/-- Settles O39, from the laws of a read after a write. -/
theorem memWriteSetsOneCell : Obligations.MemWriteSetsOneCell :=
  fun s a v => ⟨memRead_memWrite_same a v s, fun _ hb => memRead_memWrite_other v s hb, rfl⟩

end Sys2Proof.Machine
end

section
/-! O1, O2, O3: the decoder and the encoder are inverse to each other, and the opcode lookup inverts OPC (R60 to R71).
The round trip from the instruction is `decode_encode`; this section adds the one from the bytes and the illegal byte. -/

namespace Sys2Proof

/-- Settles O1: an admissible OPC is injective, which is all that `decode_encode` needs. -/
theorem encodeThenDecodeGivesInstruction : Obligations.EncodeThenDecodeGivesInstruction :=
  fun _ i rest hc _ => decode_encode (Config.admissible_injective hc) i rest

theorem encode_of_noOperand (c : Config) {m : Mnemonic} {i : Instr} (h : m.shape = .noOperand i) :
    encode c i = [c.opc m] := by
  cases m <;> cases h <;> rfl

theorem encode_of_operand (c : Config) {m : Mnemonic} {build : Byte → Instr} (h : m.shape = .operand build)
    (opnd : Byte) : encode c (build opnd) = [c.opc m, opnd] := by
  cases m <;> cases h <;> rfl

/-- The bytes a successful decoding has read are the encoding of its answer, for every OPC. -/
theorem eq_encode_append_of_decode {c : Config} {bytes rest : List Byte} {i : Instr}
    (h : decode c bytes = .ok (i, rest)) : bytes = encode c i ++ rest := by
  cases bytes with
  | nil => cases h
  | cons b tail =>
    have hd := decodeOpcode_of_decode h
    have hb : c.opc i.mnemonic = b := decodeOpcode_some hd
    cases hsh : i.mnemonic.shape with
    | noOperand j =>
      simp only [decode, hd, hsh, Except.ok.injEq, Prod.mk.injEq] at h
      obtain ⟨rfl, rfl⟩ := h
      rw [encode_of_noOperand c hsh, hb, List.singleton_append]
    | operand build =>
      cases tail with
      | nil => simp [decode, hd, hsh] at h
      | cons opnd tail =>
        simp only [decode, hd, hsh, Except.ok.injEq, Prod.mk.injEq] at h
        obtain ⟨hi, rfl⟩ := h
        rw [← hi, encode_of_operand c hsh, hb]
        rfl

/-- Settles O2: the bytes by `eq_encode_append_of_decode`; every instruction is well formed (R71). -/
theorem decodedBytesAreTheEncoding : Obligations.DecodedBytesAreTheEncoding :=
  fun _ _ i _ h => ⟨eq_encode_append_of_decode h, i.wellFormed_all⟩

theorem decodeOpcode_eq_some_iff {c : Config} (h : c.opcInjective = true) {b : Byte} {m : Mnemonic} :
    decodeOpcode c b = some m ↔ c.opc m = b :=
  ⟨decodeOpcode_some, fun hm => hm ▸ decodeOpcode_opc h m⟩

theorem decodeOpcode_eq_none_iff {c : Config} {b : Byte} : decodeOpcode c b = none ↔ ∀ m, c.opc m ≠ b := by
  constructor
  · exact decodeOpcode_none
  · intro h
    rw [Option.eq_none_iff_forall_ne_some]
    exact fun m hm => h m (decodeOpcode_some hm)

theorem decode_illegal {c : Config} {b : Byte} (h : decodeOpcode c b = none) (rest : List Byte) :
    decode c (b :: rest) = .error (.illegal b) := by
  simp only [decode, h]

/-- Settles O3, from the lookup as an equivalence in both of its outcomes. -/
theorem opcodeByteDecodesToItsMnemonicOrIsIllegal : Obligations.OpcodeByteDecodesToItsMnemonicOrIsIllegal :=
  fun _ _ hc => ⟨fun _ => decodeOpcode_eq_some_iff hc, decodeOpcode_eq_none_iff,
    fun h => decode_illegal (decodeOpcode_eq_none_iff.mpr h)⟩

end Sys2Proof
end

section
/-! O6: which bytes fault at the default OPC (R69). A step of a Running CPU raises IllegalInstruction exactly where the
lookup fails, under every OPC; where it fails at the default OPC is arithmetic. -/

namespace Sys2Proof

/-- The lookup compares the byte with each of the 19 codes of R66, whose four blocks leave out the bytes of R69. -/
theorem decodeOpcode_default_eq_none_iff (b : Byte) :
    decodeOpcode defaultConfig b = none ↔
      (0x05 ≤ b.toNat ∧ b.toNat ≤ 0x10) ∨ (0x17 ≤ b.toNat ∧ b.toNat ≤ 0x20) ∨
      (0x25 ≤ b.toNat ∧ b.toNat ≤ 0x30) ∨ 0x35 ≤ b.toNat := by
  simp only [decodeOpcode, Mnemonic.all, List.find?_eq_none, List.forall_mem_cons, List.not_mem_nil, false_implies,
    implies_true, and_true, defaultConfig, defaultOpc, beq_iff_eq, ← BitVec.toNat_inj, BitVec.reduceToNat]
  omega

end Sys2Proof

namespace Sys2Proof.Machine

/-- The execute stage of a Running CPU never raises IllegalInstruction. -/
theorem execWith_status_ne_illegal {c : Config} {i : Instr} {s t : State} (hrun : s.status = .running)
    (h : execWith c i s = .next t) (b : Byte) : t.status ≠ .faulted (.illegalInstruction b) := by
  obtain ⟨-, rfl⟩ | ⟨a, v, -, rfl⟩ | ⟨r, v, -, rfl⟩ | ⟨v, -, -, rfl⟩ := execWith_next_cases h <;> simp [hrun]

/-- A step of a Running CPU raises IllegalInstruction exactly where the byte at pc is no opcode byte (R93). -/
theorem stepWith_illegal_iff {c : Config} {s : State} (hrun : s.status = .running) :
    (∃ t, stepWith c s = .next t ∧ t.status = .faulted (.illegalInstruction (memRead s.pc s))) ↔
      decodeOpcode c (memRead s.pc s) = none := by
  cases hd : decodeOpcode c (memRead s.pc s) with
  | none => exact iff_of_true ⟨_, stepWith_miss hrun hd, rfl⟩ rfl
  | some m =>
    refine iff_of_false ?_ (Option.some_ne_none m)
    rintro ⟨t, hstep, hstatus⟩
    rw [stepWith_hit hrun hd] at hstep
    exact execWith_status_ne_illegal (by simpa using hrun) hstep _ hstatus

/-- Settles O6: the fault is the failed lookup, and the lookup fails on the bytes of R69. -/
theorem defaultMapFaultsExactlyOnTheIllegalBytes : Obligations.DefaultMapFaultsExactlyOnTheIllegalBytes :=
  fun _ hrun => (stepWith_illegal_iff hrun).trans (decodeOpcode_default_eq_none_iff _)

end Sys2Proof.Machine
end

section
/-! O11: no admissible OPC uses a byte above 0x34 (R67 point 1). -/

namespace Sys2Proof

theorem Config.admissible_opc_le {c : Config} (hc : c.admissible = true) (m : Mnemonic) : c.opc m ≤ 0x34#8 := by
  simp only [Config.admissible, Config.opcInRange, Bool.and_eq_true, List.all_eq_true, decide_eq_true_eq] at hc
  obtain ⟨⟨-, hrange⟩, -⟩ := hc
  exact hrange m m.mem_all

theorem decodeOpcode_above_range {c : Config} (hc : c.admissible = true) {b : Byte} (hb : 0x34 < b.toNat) :
    decodeOpcode c b = none := by
  refine decodeOpcode_eq_none_iff.mpr ?_
  rintro m rfl
  exact absurd (BitVec.le_def.mp (Config.admissible_opc_le hc m)) (Nat.not_le.mpr hb)

end Sys2Proof

namespace Sys2Proof.Machine

/-- Settles O11: such a byte is undecodable, so the step is a decode miss. -/
theorem byteAboveTheCodeRangeFaults : Obligations.ByteAboveTheCodeRangeFaults :=
  fun _ _ hc hrun hb => stepWith_miss hrun (decodeOpcode_above_range hc hb)

end Sys2Proof.Machine
end

section
/-! O4, O5: written-out words. Each is recognised as an encoding, which `decode_encode` reads back. -/

namespace Sys2Proof

/-- R67 point 2: the other four opcode bytes that the source fixes, beside `Config.admissible_opc_hlt`. -/
theorem Config.admissible_opc_anchors {c : Config} (hc : c.admissible = true) :
    c.opc .outa = 0x03#8 ∧ c.opc .movla = 0x11#8 ∧ c.opc .movlb = 0x12#8 ∧ c.opc .adda = 0x21#8 := by
  simp only [Config.admissible, Config.opcAnchored, Bool.and_eq_true, beq_iff_eq] at hc
  obtain ⟨-, ⟨⟨⟨-, houta⟩, hmovla⟩, hmovlb⟩, hadda⟩ := hc
  exact ⟨houta, hmovla, hmovlb, hadda⟩

/-- A byte list that is exactly an encoding decodes to it with nothing left. -/
theorem decode_of_eq_encode {c : Config} (hc : c.admissible = true) {bytes : List Byte} {i : Instr}
    (h : bytes = encode c i) : decode c bytes = .ok (i, []) := by
  rw [h, ← List.append_nil (encode c i), decode_encode (Config.admissible_injective hc)]

/-- Settles O4: under the anchors of R67 the source's bytes are encodings. -/
theorem sourceProgramBytesDecode : Obligations.SourceProgramBytesDecode := by
  intro c hc
  have hhlt := Config.admissible_opc_hlt hc
  obtain ⟨houta, hmovla, hmovlb, hadda⟩ := Config.admissible_opc_anchors hc
  refine ⟨?_, ?_, ?_, ?_, ?_⟩ <;> apply decode_of_eq_encode hc
  · rw [encode, hmovla]
  · rw [encode, hmovlb]
  · rw [encode, hadda]
  · rw [encode, houta]
  · rw [encode, hhlt]

/-- A table word whose bytes begin with an encoding at the default OPC is read as that instruction. -/
theorem decodeTableWord_of_encode {nbits w : Nat} {i : Instr} (rest : List Byte)
    (h : tableBytes nbits w = encode defaultConfig i ++ rest) : decodeTableWord nbits w = some i := by
  rw [decodeTableWord, h, decode_encode (Config.admissible_injective defaultConfig_admissible)]

theorem decodeTableWord_of_illegal {nbits w : Nat} {b : Byte} {rest : List Byte} (h : tableBytes nbits w = b :: rest)
    (hb : decodeOpcode defaultConfig b = none) : decodeTableWord nbits w = none := by
  rw [decodeTableWord, h, decode_illegal hb]

/-- Settles O5: six words begin with an encoding, the byte after a one-byte instruction being 0; the byte of the last
is above the code range. -/
theorem defaultMapWordsDecode : Obligations.DefaultMapWordsDecode :=
  ⟨decodeTableWord_of_encode [0#8] rfl, decodeTableWord_of_encode [] rfl, decodeTableWord_of_encode [] rfl,
    decodeTableWord_of_encode [] rfl, decodeTableWord_of_encode [0#8] rfl, decodeTableWord_of_encode [0#8] rfl,
    decodeTableWord_of_illegal rfl (decodeOpcode_above_range defaultConfig_admissible (by decide))⟩

end Sys2Proof
end

section
/-! O13, O7, O8, O10, O12, O16: the cycle and HLT (R90 to R97). A step of a Running CPU is a decode miss or an execute
stage; what an execute stage does to the run state is said once, by instruction. -/

namespace Sys2Proof

/-- A decodable byte and the byte after it decode to the mnemonic completed by that second byte. -/
theorem decode_of_decodeOpcode {c : Config} {b : Byte} {m : Mnemonic} (h : decodeOpcode c b = some m) (opnd : Byte) :
    ∃ rest, decode c [b, opnd] = .ok (m.instr opnd, rest) := by
  cases hsh : m.shape with
  | noOperand i => exact ⟨[opnd], by simp only [decode, h, Mnemonic.instr, hsh]⟩
  | operand build => exact ⟨[], by simp only [decode, h, Mnemonic.instr, hsh]⟩

end Sys2Proof

namespace Sys2Proof.Machine

/-- An execute stage of a Running CPU leaves it Running, except that HLT halts and an arithmetic instruction may
fault. -/
theorem execWith_status_cases {c : Config} {i : Instr} {s t : State} (hrun : s.status = .running)
    (h : execWith c i s = .next t) :
    (t.status = .running ∧ i ≠ .hlt) ∨ (t.status = .halted ∧ i = .hlt) ∨
    (∃ v, (v < 0 ∨ 255 < v) ∧ t.status = .faulted (.outOfRange v) ∧ i.mnemonic ∈ arithmetic) := by
  obtain ⟨hi, rfl⟩ | ⟨a, v, hi, rfl⟩ | ⟨r, b, he, rfl⟩ | ⟨v, hm, hv, rfl⟩ := execWith_next_cases h
  · exact .inr (.inl ⟨rfl, hi⟩)
  · exact .inl ⟨by simpa using hrun, by rintro rfl; simp at hi⟩
  · exact .inl ⟨by simpa using hrun, by rintro rfl; cases he⟩
  · exact .inr (.inr ⟨v, by omega, rfl, hm⟩)

/-- Settles O13: a decode miss is the third outcome, and the execute stage has the other three. -/
theorem runningStepHasOneOfFourOutcomes : Obligations.RunningStepHasOneOfFourOutcomes := by
  intro c s hrun
  obtain ⟨t, hstep⟩ := stepWith_next_of_running c hrun
  refine ⟨t, hstep, ?_⟩
  cases hd : decodeOpcode c (memRead s.pc s) with
  | none =>
    rw [stepWith_miss hrun hd] at hstep
    cases hstep
    exact .inr (.inr (.inl ⟨rfl, rfl⟩))
  | some m =>
    rw [stepWith_hit hrun hd] at hstep
    obtain ⟨hst, hi⟩ | ⟨hst, hi⟩ | ⟨v, hv, hst, hm⟩ := execWith_status_cases (s := incPc s) hrun hstep
    · obtain ⟨rest, hdec⟩ := decode_of_decodeOpcode hd (operandByte s)
      exact .inl ⟨hst, _, rest, hdec, hi, execWith_pc hstep rfl⟩
    · have hm : m = .hlt := by rw [← m.mnemonic_instr (operandByte s), hi]; rfl
      exact .inr (.inl ⟨hst, by rw [hm]⟩)
    · rw [Mnemonic.mnemonic_instr] at hm
      exact .inr (.inr (.inr ⟨v, hv, hst, m, rfl, hm⟩))

/-- Settles O7: it is `step_of_decode`, with `incPc` written out. -/
theorem stepRunsTheDecodedInstruction : Obligations.StepRunsTheDecodedInstruction :=
  fun _ _ _ => step_of_decode

/-- Settles O8: the encoding at pc decodes to its instruction, which the step then runs. -/
theorem stepRunsTheEncodedInstruction : Obligations.StepRunsTheEncodedInstruction := by
  intro c s i rest hc hrun hwin
  refine stepWith_of_decode (rest := rest) hrun ?_
  rw [hwin, decode_encode (Config.admissible_injective hc)]

/-- Settles O10: the lookup fails at a byte that no operation has, so the step is a decode miss. -/
theorem undecodableByteFaults : Obligations.UndecodableByteFaults :=
  fun _ _ hrun hb => stepWith_miss hrun (decodeOpcode_eq_none_iff.mpr hb)

theorem stepWith_halted (c : Config) {s : State} (h : s.status = .halted) : stepWith c s = .fault .halted := by
  simp only [stepWith, h]

theorem stepWith_faulted (c : Config) {s : State} {reason : FaultReason} (h : s.status = .faulted reason) :
    stepWith c s = .fault (.faulted reason) := by
  simp only [stepWith, h]

/-- Settles O12: the step by its two equations at the terminal states, the run by `runFor_not_running`. -/
theorem terminalStatesHaveNoStep : Obligations.TerminalStatesHaveNoStep :=
  fun c _ => ⟨stepWith_halted c, fun _ => stepWith_faulted c, fun h fuel => runFor_not_running c fuel h⟩

/-- Settles O16: HLT's byte is 0 under every admissible OPC, and no step is enabled in Halted. -/
theorem hltHalts : Obligations.HltHalts := by
  refine ⟨fun _ => rfl, fun c s hc hrun hzero => ⟨stepWith_zero_halts hc hrun hzero, fun u hu => ?_⟩⟩
  rw [stepWith_halted c rfl] at hu
  cases hu

end Sys2Proof.Machine
end

section
/-! O48: the run loop (R96, R14, R181). A Running CPU always has a step, so a run stops only where status is no longer
Running or where the fuel is used up. -/

namespace Sys2Proof.Machine

/-- With fuel left, a run of a Running CPU is the run from its next state, whatever the fuel. -/
theorem exists_runFor_succ (c : Config) {s : State} (hrun : s.status = .running) :
    ∃ u, ∀ fuel, runFor c (fuel + 1) s = runFor c fuel u := by
  obtain ⟨u, hu⟩ := stepWith_next_of_running c hrun
  exact ⟨u, runFor_succ_next hu⟩

/-- A run that ended is over, and more fuel does not change where it ended. -/
theorem runFor_ended {c : Config} {fuel : Nat} {s t : State} (h : runFor c fuel s = .ended t) :
    t.status ≠ .running ∧ ∀ more, runFor c (fuel + more) s = .ended t := by
  induction fuel generalizing s with
  | zero =>
    have hover : s.status ≠ .running := fun hrun => by
      rw [runFor_zero_running c hrun] at h
      cases h
    rw [runFor_not_running c 0 hover] at h
    cases h
    exact ⟨hover, fun more => runFor_not_running c _ hover⟩
  | succ fuel ih =>
    by_cases hrun : s.status = .running
    · obtain ⟨u, hu⟩ := exists_runFor_succ c hrun
      rw [hu] at h
      obtain ⟨hover, hmore⟩ := ih h
      exact ⟨hover, fun more => by rw [Nat.add_right_comm, hu, hmore]⟩
    · rw [runFor_not_running c _ hrun] at h
      cases h
      exact ⟨hrun, fun more => runFor_not_running c _ hrun⟩

/-- A run that is out of fuel is still Running. -/
theorem runFor_outOfFuel {c : Config} {fuel : Nat} {s t : State} (h : runFor c fuel s = .outOfFuel t) :
    t.status = .running := by
  induction fuel generalizing s with
  | zero =>
    by_cases hrun : s.status = .running
    · rw [runFor_zero_running c hrun] at h
      cases h
      exact hrun
    · rw [runFor_not_running c 0 hrun] at h
      cases h
  | succ fuel ih =>
    by_cases hrun : s.status = .running
    · obtain ⟨u, hu⟩ := exists_runFor_succ c hrun
      exact ih ((hu fuel).symm.trans h)
    · rw [runFor_not_running c _ hrun] at h
      cases h

/-- The run state where a run is over is Halted, its successful end, or Faulted (R14). -/
theorem faulted_of_over {t : State} (hover : t.status ≠ .running) (hfail : successfulEnd t = false) :
    ∃ reason, t.status = .faulted reason := by
  cases hs : t.status with
  | running => exact absurd hs hover
  | halted => simp [successfulEnd, hs] at hfail
  | faulted reason => exact ⟨reason, rfl⟩

/-- Settles O48: the unfolding is `runFor_succ_next`; the two ends are `runFor_ended` and `runFor_outOfFuel`. -/
theorem runRepeatsTheStepUntilNotRunning : Obligations.RunRepeatsTheStepUntilNotRunning := by
  intro c fuel s
  refine ⟨fun t hstep => runFor_succ_next hstep fuel, fun t hend => ?_, fun t => runFor_outOfFuel⟩
  obtain ⟨hover, hmore⟩ := runFor_ended hend
  exact ⟨decide_eq_true hover, faulted_of_over hover, hmore⟩

end Sys2Proof.Machine
end

section
/-! O17, O18, O19: the output instructions (R100 to R103). Each presents a byte to OUT, so its checked write succeeds; a
step that fetches one is its execute stage with pc already past the opcode byte (R92). -/

namespace Sys2Proof.Machine

/-- Where the opcode byte at pc is that of `m`, a step ends where `exec` does from pc past that byte. ORA is excluded:
its execute stage depends on ORA_DEST (R133). -/
theorem stepWith_of_fetches_exec {c : Config} {s t : State} {m : Mnemonic} (hc : c.admissible = true)
    (h : Fetches c s m) (hm : m ≠ .ora) (hexec : exec (m.instr (operandByte s)) (incPc s) = .next t) :
    stepWith c s = .next t := by
  have hi : m.instr (operandByte s) ≠ .ora := fun hi => hm (by rw [← m.mnemonic_instr (operandByte s), hi]; rfl)
  rw [stepWith_of_fetches hc h, execWith_other c hi, hexec]

/-- The two increments of a two-byte instruction (R92, R94). -/
theorem incPc_pc_add_one (s : State) : (incPc s).pc + 1#8 = s.pc + 2#8 :=
  BitVec.add_assoc s.pc 1#8 1#8

theorem exec_outl (s : State) (lit : Byte) : exec (.outl lit) s = .next { s with OUT := lit, pc := s.pc + 1#8 } :=
  checkedWrite_byte .out lit incPc s

theorem exec_outr (s : State) (addr : Addr) :
    exec (.outr addr) s = .next { s with OUT := memRead addr s, pc := s.pc + 1#8 } :=
  checkedWrite_byte .out (memRead addr s) incPc s

theorem exec_outa (s : State) : exec .outa s = .next { s with OUT := s.A } :=
  checkedWrite_byte .out s.A keepPc s

theorem exec_outb (s : State) : exec .outb s = .next { s with OUT := s.B } :=
  checkedWrite_byte .out s.B keepPc s

/-- Settles O17: the source fixes OUTA's byte, so the CPU fetches OUTA and `exec_outa` applies. -/
theorem outaCopiesA : Obligations.OutaCopiesA := by
  refine ⟨exec_outa, fun c s hc hrun hbyte => ?_⟩
  obtain ⟨houta, -⟩ := Config.admissible_opc_anchors hc
  exact stepWith_of_fetches_exec hc ⟨hrun, hbyte.trans houta.symm⟩ (by decide) (exec_outa (incPc s))

/-- Settles O18, from `exec_outb` with pc past the opcode byte. -/
theorem outbCopiesB : Obligations.OutbCopiesB :=
  ⟨exec_outb, fun _ s hc h => stepWith_of_fetches_exec hc h (by decide) (exec_outb (incPc s))⟩

/-- Settles O19: `exec_outl` and `exec_outr` at the operand byte, with pc past the opcode byte. -/
theorem outlAndOutrSetOut : Obligations.OutlAndOutrSetOut := by
  refine ⟨exec_outl, exec_outr, fun c s hc => ?_⟩
  rw [← incPc_pc_add_one]
  exact ⟨fun h => stepWith_of_fetches_exec hc h (by decide) (exec_outl (incPc s) (operandByte s)),
    fun h => stepWith_of_fetches_exec hc h (by decide) (exec_outr (incPc s) (operandByte s))⟩

end Sys2Proof.Machine
end

section
/-! O20, O21, O22, O23: the move instructions (R110 to R115). A load presents a byte to its register, so its checked
write succeeds; a store writes one cell. Both are followed by the second increment of pc (R94). -/

namespace Sys2Proof.Machine

theorem exec_movla (s : State) (lit : Byte) : exec (.movla lit) s = .next { s with A := lit, pc := s.pc + 1#8 } :=
  checkedWrite_byte (.gpr .A) lit incPc s

theorem exec_movlb (s : State) (lit : Byte) : exec (.movlb lit) s = .next { s with B := lit, pc := s.pc + 1#8 } :=
  checkedWrite_byte (.gpr .B) lit incPc s

theorem exec_movra (s : State) (addr : Addr) :
    exec (.movra addr) s = .next { s with A := memRead addr s, pc := s.pc + 1#8 } :=
  checkedWrite_byte (.gpr .A) (memRead addr s) incPc s

theorem exec_movrb (s : State) (addr : Addr) :
    exec (.movrb addr) s = .next { s with B := memRead addr s, pc := s.pc + 1#8 } :=
  checkedWrite_byte (.gpr .B) (memRead addr s) incPc s

theorem stepWith_movla {c : Config} {s : State} (hc : c.admissible = true) (h : Fetches c s .movla) :
    stepWith c s = .next { s with A := operandByte s, pc := s.pc + 2#8 } := by
  rw [← incPc_pc_add_one]
  exact stepWith_of_fetches_exec hc h (by decide) (exec_movla (incPc s) (operandByte s))

theorem stepWith_movlb {c : Config} {s : State} (hc : c.admissible = true) (h : Fetches c s .movlb) :
    stepWith c s = .next { s with B := operandByte s, pc := s.pc + 2#8 } := by
  rw [← incPc_pc_add_one]
  exact stepWith_of_fetches_exec hc h (by decide) (exec_movlb (incPc s) (operandByte s))

/-- The operand of an instruction in the last cell is in the first one (R27). -/
theorem operandByte_of_pc_top {s : State} (hpc : s.pc = 0xFF#8) : operandByte s = memRead 0x00#8 s := by
  rw [operandByte, hpc]
  rfl

/-- The two increments of a two-byte instruction in the last cell (R27). -/
theorem pc_add_two_of_pc_top {s : State} (hpc : s.pc = 0xFF#8) : s.pc + 2#8 = 0x01#8 := by
  rw [hpc]
  rfl

/-- Settles O20: the source fixes MOVLA's byte, so `stepWith_movla` applies, at pc = 255 with operand and pc wrapped. -/
theorem movlaLoadsLiteral : Obligations.MovlaLoadsLiteral := by
  refine ⟨exec_movla, fun c s hc hrun hbyte => ?_⟩
  obtain ⟨-, hmovla, -⟩ := Config.admissible_opc_anchors hc
  have hstep := stepWith_movla hc ⟨hrun, hbyte.trans hmovla.symm⟩
  exact ⟨hstep, fun hpc => by rw [hstep, operandByte_of_pc_top hpc, pc_add_two_of_pc_top hpc]⟩

/-- Settles O21: as O20, with MOVLB's byte and `stepWith_movlb`. -/
theorem movlbLoadsLiteral : Obligations.MovlbLoadsLiteral := by
  refine ⟨exec_movlb, fun c s hc hrun hbyte => ?_⟩
  obtain ⟨-, -, hmovlb, -⟩ := Config.admissible_opc_anchors hc
  have hstep := stepWith_movlb hc ⟨hrun, hbyte.trans hmovlb.symm⟩
  exact ⟨hstep, fun hpc => by rw [hstep, operandByte_of_pc_top hpc, pc_add_two_of_pc_top hpc]⟩

/-- Settles O22: `exec_movra` and `exec_movrb` at the operand byte; the first increment of pc does not change the cell
they read. -/
theorem movraAndMovrbLoadACell : Obligations.MovraAndMovrbLoadACell := by
  refine ⟨exec_movra, exec_movrb, fun c s hc => ?_⟩
  rw [← incPc_pc_add_one]
  exact ⟨fun h => stepWith_of_fetches_exec hc h (by decide) (exec_movra (incPc s) (operandByte s)),
    fun h => stepWith_of_fetches_exec hc h (by decide) (exec_movrb (incPc s) (operandByte s))⟩

/-- The effect of a store with its increment of pc: one cell takes the value, and nothing else but pc changes. -/
theorem incPc_memWrite_sets_one_cell (addr : Addr) (v : Byte) (s : State) :
    memRead addr (incPc (memWrite addr v s)) = v ∧
    (∀ a, a ≠ addr → memRead a (incPc (memWrite addr v s)) = memRead a s) ∧
    incPc (memWrite addr v s) = { s with mem := (incPc (memWrite addr v s)).mem, pc := s.pc + 1#8 } :=
  ⟨memRead_memWrite_same addr v s, fun _ ha => memRead_memWrite_other v s ha, rfl⟩

/-- The same for a whole step of a store, which moves pc past both bytes. -/
theorem afterStore_sets_one_cell (v : Byte) (s : State) :
    memRead (operandByte s) (afterStore v s) = v ∧
    (∀ a, a ≠ operandByte s → memRead a (afterStore v s) = memRead a s) ∧
    afterStore v s = { s with mem := (afterStore v s).mem, pc := s.pc + 2#8 } := by
  rw [← incPc_pc_add_one]
  exact incPc_memWrite_sets_one_cell (operandByte s) v (incPc s)

/-- Settles O23: `exec` of a store is its effect, and a step that fetches one leads to `afterStore`. -/
theorem movarAndMovbrStoreOneCell : Obligations.MovarAndMovbrStoreOneCell :=
  ⟨fun s addr => ⟨_, rfl, incPc_memWrite_sets_one_cell addr s.A s⟩,
    fun s addr => ⟨_, rfl, incPc_memWrite_sets_one_cell addr s.B s⟩,
    fun _ s hc => ⟨fun h => ⟨_, stepWith_movar hc h, afterStore_sets_one_cell s.A s⟩,
      fun h => ⟨_, stepWith_movbr hc h, afterStore_sets_one_cell s.B s⟩⟩⟩

end Sys2Proof.Machine
end

section
/-! O24, O25, O26, O27, O28: the arithmetic instructions (R120 to R124). Each presents the true integer to a checked
write, so its result is settled by whether that integer is a byte (R22, R120). -/

namespace Sys2Proof.Machine

/-- A checked write of an integer that is a natural number up to 255 stores that number. -/
theorem checkedWrite_of_eq_nat (r : Dest) {v : Int} {n : Nat} (hv : v = n) (hn : n ≤ 255) (after : State → State)
    (s : State) : checkedWrite r v after s = .next (after (setReg r (BitVec.ofNat 8 n) s)) := by
  have hbyte : v = unsigned (BitVec.ofNat 8 n) := by
    rw [hv, unsigned, BitVec.toNat_ofNat, Nat.mod_eq_of_lt (by omega)]
  rw [hbyte, checkedWrite_byte]

/-! ## The execute stage as an equation -/

theorem exec_adda (s : State) :
    exec .adda s = checkedWrite (.gpr .A) ((s.A.toNat : Int) + s.B.toNat) keepPc s := rfl

theorem exec_addb (s : State) :
    exec .addb s = checkedWrite (.gpr .B) ((s.A.toNat : Int) + s.B.toNat) keepPc s := rfl

theorem exec_subba (s : State) :
    exec .subba s = checkedWrite (.gpr .A) ((s.A.toNat : Int) - s.B.toNat) keepPc s := rfl

theorem exec_subab (s : State) :
    exec .subab s = checkedWrite (.gpr .B) ((s.B.toNat : Int) - s.A.toNat) keepPc s := rfl

/-! ## In range -/

theorem exec_adda_in_range {s : State} (h : s.A.toNat + s.B.toNat ≤ 255) :
    exec .adda s = .next { s with A := BitVec.ofNat 8 (s.A.toNat + s.B.toNat) } := by
  rw [exec_adda, checkedWrite_of_eq_nat _ (Int.natCast_add _ _).symm h]
  rfl

theorem exec_addb_in_range {s : State} (h : s.A.toNat + s.B.toNat ≤ 255) :
    exec .addb s = .next { s with B := BitVec.ofNat 8 (s.A.toNat + s.B.toNat) } := by
  rw [exec_addb, checkedWrite_of_eq_nat _ (Int.natCast_add _ _).symm h]
  rfl

theorem exec_subba_in_range {s : State} (h : s.B.toNat ≤ s.A.toNat) :
    exec .subba s = .next { s with A := BitVec.ofNat 8 (s.A.toNat - s.B.toNat) } := by
  rw [exec_subba, checkedWrite_of_eq_nat _ (Int.natCast_sub h).symm (by omega)]
  rfl

theorem exec_subab_in_range {s : State} (h : s.A.toNat ≤ s.B.toNat) :
    exec .subab s = .next { s with B := BitVec.ofNat 8 (s.B.toNat - s.A.toNat) } := by
  rw [exec_subab, checkedWrite_of_eq_nat _ (Int.natCast_sub h).symm (by omega)]
  rfl

/-- Settles O24, from `exec_adda_in_range` and `exec_addb_in_range`, for the step with pc past the opcode byte. -/
theorem addInRangeWritesTheSum : Obligations.AddInRangeWritesTheSum :=
  fun s h => ⟨exec_adda_in_range h, exec_addb_in_range h, fun _ hc =>
    ⟨fun hf => stepWith_of_fetches_exec hc hf (by decide) (exec_adda_in_range (s := incPc s) h),
      fun hf => stepWith_of_fetches_exec hc hf (by decide) (exec_addb_in_range (s := incPc s) h)⟩⟩

/-- Settles O25, from `exec_subba_in_range`, for the step with pc past the opcode byte. -/
theorem subbaInRangeWritesTheDifference : Obligations.SubbaInRangeWritesTheDifference :=
  fun s h => ⟨exec_subba_in_range h, fun _ hc hf =>
    stepWith_of_fetches_exec hc hf (by decide) (exec_subba_in_range (s := incPc s) h)⟩

/-- Settles O26, from `exec_subab_in_range`, for the step with pc past the opcode byte. -/
theorem subabInRangeWritesTheDifference : Obligations.SubabInRangeWritesTheDifference :=
  fun s h => ⟨exec_subab_in_range h, fun _ hc hf =>
    stepWith_of_fetches_exec hc hf (by decide) (exec_subab_in_range (s := incPc s) h)⟩

/-! ## Out of range -/

/-- Settles O27: a sum of 256 or more and a negative difference are no bytes, so the checked write raises OutOfRange and
the destination is not written. -/
theorem arithmeticOutOfRangeFaults : Obligations.ArithmeticOutOfRangeFaults := by
  intro s
  refine ⟨fun h => ?_, fun h => ?_, fun h => ?_⟩
  · have hsum : (s.A.toNat : Int) + s.B.toNat < 0 ∨ 255 < (s.A.toNat : Int) + s.B.toNat := by omega
    exact ⟨(exec_adda s).trans (checkedWrite_out_of_range _ hsum _ s),
      (exec_addb s).trans (checkedWrite_out_of_range _ hsum _ s)⟩
  · exact (exec_subba s).trans (checkedWrite_out_of_range _ (.inl (by omega)) _ s)
  · exact (exec_subab s).trans (checkedWrite_out_of_range _ (.inl (by omega)) _ s)

/-- The run state after a step whose instruction writes `v` to a register: OutOfRange or Running, as `v` is no byte or
is one (R22, R142). -/
theorem stepWith_status_of_write {c : Config} {s t : State} {m : Mnemonic} {r : Dest} {v : Int}
    (hc : c.admissible = true) (h : Fetches c s m)
    (heff : effect c (m.instr (operandByte s)) (incPc s) = .write r v) (hstep : stepWith c s = .next t) :
    ((∃ w, t.status = .faulted (.outOfRange w)) ↔ v < 0 ∨ 255 < v) ∧ (t.status = .running ↔ 0 ≤ v ∧ v ≤ 255) := by
  rw [stepWith_of_fetches hc h, execWith_eq_run, heff, Effect.run] at hstep
  obtain ⟨b, rfl, hw⟩ | ⟨hv, hw⟩ := checkedWrite_cases r v (afterEffect _) (incPc s)
  · rw [hw] at hstep
    cases hstep
    obtain ⟨hlo, hhi⟩ := unsigned_range b
    obtain ⟨hrun, -⟩ := h
    simp [hrun, hlo, hhi]
  · rw [hw] at hstep
    cases hstep
    have hnot : ¬ (0 ≤ v ∧ v ≤ 255) := by omega
    simp [hv, hnot]

/-- Settles O28: `stepWith_status_of_write` at the true sum or difference; a sum of bytes is never negative and a
difference of bytes never above 255. -/
theorem arithmeticFaultsExactlyOutOfRange : Obligations.ArithmeticFaultsExactlyOutOfRange := by
  intro c s t hc hstep
  refine ⟨fun h => ?_, fun h => ?_, fun h => ?_⟩
  · obtain ⟨hfault, hrun⟩ := h.elim
      (fun h => stepWith_status_of_write (r := .gpr .A) (v := (s.A.toNat : Int) + s.B.toNat) hc h rfl hstep)
      (fun h => stepWith_status_of_write (r := .gpr .B) (v := (s.A.toNat : Int) + s.B.toNat) hc h rfl hstep)
    rw [hfault, hrun]
    omega
  · obtain ⟨hfault, hrun⟩ :=
      stepWith_status_of_write (r := .gpr .A) (v := (s.A.toNat : Int) - s.B.toNat) hc h rfl hstep
    rw [hfault, hrun]
    omega
  · obtain ⟨hfault, hrun⟩ :=
      stepWith_status_of_write (r := .gpr .B) (v := (s.B.toNat : Int) - s.A.toNat) hc h rfl hstep
    rw [hfault, hrun]
    omega

end Sys2Proof.Machine
end

section
/-! O29, O30, O31, O32: the logic instructions (R130 to R134). Each presents the byte A & B or A | B to its register, so
its checked write succeeds for every A and B. -/

namespace Sys2Proof.Machine

/-! ## The execute stage as an equation -/

theorem exec_anda (s : State) : exec .anda s = .next { s with A := s.A &&& s.B } :=
  checkedWrite_byte (.gpr .A) (andAB s) keepPc s

theorem exec_andb (s : State) : exec .andb s = .next { s with B := s.A &&& s.B } :=
  checkedWrite_byte (.gpr .B) (andAB s) keepPc s

theorem exec_orb (s : State) : exec .orb s = .next { s with B := s.A ||| s.B } :=
  checkedWrite_byte (.gpr .B) (orAB s) keepPc s

theorem execOraInto_eq (dest : Gpr) (s : State) :
    execOraInto dest s = .next (setReg (.gpr dest) (s.A ||| s.B) s) :=
  checkedWrite_byte (.gpr dest) (orAB s) keepPc s

/-- Settles O29, from `exec_anda` and `exec_andb`, for the step with pc past the opcode byte. -/
theorem andaAndAndbWriteTheConjunction : Obligations.AndaAndAndbWriteTheConjunction :=
  ⟨exec_anda, exec_andb, fun _ s hc =>
    ⟨fun h => stepWith_of_fetches_exec hc h (by decide) (exec_anda (incPc s)),
      fun h => stepWith_of_fetches_exec hc h (by decide) (exec_andb (incPc s))⟩⟩

/-- Settles O30, from `exec_orb`, for the step with pc past the opcode byte. -/
theorem orbWritesTheDisjunction : Obligations.OrbWritesTheDisjunction :=
  ⟨exec_orb, fun _ s hc h => stepWith_of_fetches_exec hc h (by decide) (exec_orb (incPc s))⟩

/-! ## ORA, whose destination is a parameter -/

/-- A step that fetches ORA writes the register that ORA_DEST names (R133). -/
theorem stepWith_ora {c : Config} {s : State} (hc : c.admissible = true) (h : Fetches c s .ora) :
    stepWith c s = .next (setReg (.gpr c.oraDest) (s.A ||| s.B) (incPc s)) := by
  calc stepWith c s
      = execWith c .ora (incPc s) := stepWith_of_fetches hc h
    _ = execOraInto c.oraDest (incPc s) := execWith_ora c (incPc s)
    _ = .next (setReg (.gpr c.oraDest) (s.A ||| s.B) (incPc s)) := execOraInto_eq c.oraDest (incPc s)

/-- Settles O31: `exec` has the default destination B, and the step is `stepWith_ora` at each value of ORA_DEST. -/
theorem oraWritesTheRegisterOfOraDest : Obligations.OraWritesTheRegisterOfOraDest := by
  refine ⟨execOraInto_eq .B, fun c s hc h => ?_⟩
  rw [stepWith_ora hc h]
  exact ⟨fun hB => by rw [hB]; rfl, fun hA => by rw [hA]; rfl⟩

/-! ## Bit by bit -/

theorem andAB_getLsbD (s : State) (j : Nat) : (andAB s).getLsbD j = (s.A.getLsbD j && s.B.getLsbD j) :=
  BitVec.getLsbD_and

theorem orAB_getLsbD (s : State) (j : Nat) : (orAB s).getLsbD j = (s.A.getLsbD j || s.B.getLsbD j) :=
  BitVec.getLsbD_or

@[simp] theorem readGpr_setReg_same (r : Gpr) (v : Byte) (s : State) : readGpr r (setReg (.gpr r) v s) = v := by
  cases r with
  | A | B => rfl

/-- A checked write of a byte to a general register gives that register the byte's bits, and changes neither status
nor FLAGS. -/
theorem checkedWrite_byte_getLsbD (r : Gpr) {b : Byte} {j : Nat} {bit : Bool} (hbit : b.getLsbD j = bit) (s : State) :
    ∃ t, checkedWrite (.gpr r) (unsigned b) keepPc s = .next t ∧ (readGpr r t).getLsbD j = bit ∧
      t.status = s.status ∧ t.FLAGS = s.FLAGS :=
  ⟨setReg (.gpr r) b s, checkedWrite_byte (.gpr r) b keepPc s, by rw [readGpr_setReg_same, hbit],
    setReg_status (.gpr r) b s, setReg_FLAGS (.gpr r) b s⟩

/-- Settles O32: each logic instruction is a checked write of A & B or of A | B, whose bits are those of R130. -/
theorem logicIsBitwiseAndCannotFault : Obligations.LogicIsBitwiseAndCannotFault :=
  fun c s j _ =>
    ⟨checkedWrite_byte_getLsbD .A (andAB_getLsbD s j) s, checkedWrite_byte_getLsbD .B (andAB_getLsbD s j) s,
      checkedWrite_byte_getLsbD c.oraDest (orAB_getLsbD s j) s, checkedWrite_byte_getLsbD .B (orAB_getLsbD s j) s⟩

end Sys2Proof.Machine
end

section
/-! O37: a fault is precise (R146, R147). The one point is the execute stage: where it faults, it has done nothing but
raise. -/

namespace Sys2Proof.Machine

/-- An execute stage of a Running CPU that faults has raised that reason and done nothing else: no store and no
register write of the same step has taken effect. -/
theorem execWith_eq_raise_of_faulted {c : Config} {i : Instr} {s t : State} {reason : FaultReason}
    (hrun : s.status = .running) (h : execWith c i s = .next t) (hfault : t.status = .faulted reason) :
    t = raise reason s := by
  obtain ⟨-, rfl⟩ | ⟨a, v, -, rfl⟩ | ⟨r, b, -, rfl⟩ | ⟨v, -, -, rfl⟩ := execWith_next_cases h
  · cases hfault
  · simp [hrun] at hfault
  · simp [hrun] at hfault
  · cases hfault
    rfl

/-- Settles O37: after the fetch has advanced pc, both a decode miss and a faulting execute stage are a mere raise. -/
theorem faultsArePrecise : Obligations.FaultsArePrecise := by
  intro c s t reason h hfault
  obtain ⟨hrun, ⟨-, rfl⟩ | ⟨i, -, hexec, -⟩⟩ := stepWith_next_cases h
  · cases hfault
    rfl
  · exact execWith_eq_raise_of_faulted (s := incPc s) hrun hexec hfault

end Sys2Proof.Machine
end

section
/-! O49: a run ends or repeats (R179). The invariant holds along a run, and there are finitely many Running states with
the invariant, since the contents of such a state determine it; a run without an end therefore visits one twice. -/

namespace Sys2Proof.Machine

theorem running_of_runFor_outOfFuel {c : Config} {fuel : Nat} {s t : State} (h : runFor c fuel s = .outOfFuel t) :
    s.status = .running := by
  by_contra hrun
  rw [runFor_not_running c fuel hrun] at h
  cases h

/-- A run of any length keeps the invariant. -/
theorem runFor_outOfFuel_inv {c : Config} {fuel : Nat} {s t : State} (hs : Inv c s)
    (h : runFor c fuel s = .outOfFuel t) : Inv c t := by
  have hrun := running_of_runFor_outOfFuel h
  induction fuel generalizing s with
  | zero =>
    rw [runFor_zero_running c hrun] at h
    cases h
    exact hs
  | succ fuel ih =>
    obtain ⟨u, hstep⟩ := stepWith_next_of_running c hrun
    rw [runFor_succ_next hstep] at h
    exact ih (everyStepKeepsTheInvariant c s u hs hstep) h (running_of_runFor_outOfFuel h)

/-- The Running states with the invariant: all that a run passes through before it ends. -/
def runningStates (c : Config) : Set State := {s | Inv c s ∧ s.status = .running}

/-- What a state holds in A, B, OUT, pc and the 256 cells. -/
def contents (s : State) : Byte × Byte × Byte × Addr × (Addr → Byte) :=
  (s.A, s.B, s.OUT, s.pc, fun a => memRead a s)

/-- A Running state with the invariant is determined by its contents: its FLAGS is 0, and a canonical memory is
determined by its reads. -/
theorem contents_injOn (c : Config) : Set.InjOn contents (runningStates c) := by
  rintro s ⟨hs, hrun⟩ s' ⟨hs', hrun'⟩ h
  simp only [contents, Prod.mk.injEq] at h
  obtain ⟨hA, hB, hOUT, hpc, hread⟩ := h
  have hmem : s.mem = s'.mem :=
    equalReadsMeanEqualMemories _ _ hs.memCanonical hs'.memCanonical (congrFun hread)
  have hFLAGS : s.FLAGS = s'.FLAGS := hs.flagsZero.trans hs'.flagsZero.symm
  have hsame : SameButOutAndFlags s s' := ⟨hA, hB, hpc, hrun.trans hrun'.symm, hmem⟩
  calc s = withOutFlags s.OUT s.FLAGS s := rfl
    _ = withOutFlags s'.OUT s'.FLAGS s := by rw [hOUT, hFLAGS]
    _ = s' := (sameButOutAndFlags_iff.mp hsame).symm

theorem finite_byte : Finite Byte := .of_injective BitVec.toFin fun _ _ => BitVec.eq_of_toFin_eq

theorem runningStates_finite (c : Config) : (runningStates c).Finite := by
  have := finite_byte
  exact .of_injOn (Set.mapsTo_univ contents _) (contents_injOn c) Set.finite_univ

theorem runFor_outOfFuel_mem_runningStates {c : Config} {fuel : Nat} {s t : State} (hs : Inv c s)
    (h : runFor c fuel s = .outOfFuel t) : t ∈ runningStates c :=
  ⟨runFor_outOfFuel_inv hs h, runFor_outOfFuel h⟩

theorem exists_outOfFuel_of_not_ended {c : Config} {s : State} (h : ¬ ∃ fuel t, runFor c fuel s = .ended t)
    (fuel : Nat) : ∃ t, runFor c fuel s = .outOfFuel t := by
  cases hr : runFor c fuel s with
  | ended t => exact absurd ⟨fuel, t, hr⟩ h
  | outOfFuel t => exact ⟨t, rfl⟩

/-- Settles O49, by the pigeonhole principle on the states where a run without an end is cut off. -/
theorem everyRunEndsOrRepeats : Obligations.EveryRunEndsOrRepeats := by
  intro c s hs
  by_cases hend : ∃ fuel t, runFor c fuel s = .ended t
  · exact .inl hend
  · choose cutOff hcut using exists_outOfFuel_of_not_ended hend
    obtain ⟨i, j, hij, hrepeat⟩ := (runningStates_finite c).exists_lt_map_eq_of_forall_mem
      fun fuel => runFor_outOfFuel_mem_runningStates hs (hcut fuel)
    exact .inr ⟨i, j, cutOff i, hij, hcut i, hrepeat ▸ hcut j⟩

end Sys2Proof.Machine
end

section
/-! O46: a load of any other image is refused (R172). A load refuses an image that is too long, and of one that is not
it refuses the first element that is no byte. -/

namespace Sys2Proof.Machine

theorem loadImage_of_too_long {img : List Int} (h : 256 < img.length) :
    loadImage img = .refused (.imageTooLong img.length) :=
  if_pos h

/-- An image that fits and has an element outside 0 to 255 is refused for such an element. -/
theorem loadImage_of_bad_element {img : List Int} (hlen : img.length ≤ 256)
    (hbad : ¬ ∀ v ∈ img, 0 ≤ v ∧ v ≤ 255) :
    ∃ v, loadImage img = .refused (.imageElementOutOfRange v) ∧ v ∈ img ∧ (v < 0 ∨ 255 < v) := by
  have hshort : ¬ Config.memSize < img.length := Nat.not_lt.mpr hlen
  cases hfind : img.find? fun v => !inByteRange v with
  | none => exact absurd (by simpa [inByteRange_iff] using hfind) hbad
  | some v =>
    have hv : ¬ (0 ≤ v ∧ v ≤ 255) := by simpa [← inByteRange_iff] using List.find?_some hfind
    exact ⟨v, by simp [loadImage, hshort, hfind], List.mem_of_find?_eq_some hfind, by omega⟩

/-- Settles O46: the image is too long, or it fits and has an element that is no byte. -/
theorem loadRefusesEveryOtherImage : Obligations.LoadRefusesEveryOtherImage := by
  intro c img before h
  by_cases hlen : img.length ≤ 256
  · have hbad : ¬ ∀ v ∈ img, 0 ≤ v ∧ v ≤ 255 := fun hall => by
      simp [(imageWellFormed_iff img).mpr ⟨hlen, hall⟩] at h
    obtain ⟨v, hload, hv⟩ := loadImage_of_bad_element hlen hbad
    exact ⟨_, hload, .inr ⟨v, rfl, hv⟩⟩
  · have hlong := Nat.not_le.mp hlen
    exact ⟨_, loadImage_of_too_long hlong, .inl ⟨rfl, hlong⟩⟩

end Sys2Proof.Machine
end

section
/-! O47: the reset state (R170). -/

namespace Sys2Proof.Machine

/-- Settles O47: the empty image is legal and stores nothing, and the cell at address 0 reads as HLT's byte. -/
theorem resetIsTheEmptyLoadAndHalts : Obligations.ResetIsTheEmptyLoadAndHalts :=
  ⟨loadImage_of_wellFormed rfl, stepWith_zero_halts defaultConfig_admissible rfl rfl⟩

end Sys2Proof.Machine
end
